-- ==== Sys2Proof/Word.lean ====
section
/-! DEFINITION. The byte, the register index and the one narrowing operation of CORE (spec/00_scope.md R5 to R8). -/

namespace Sys2Proof

/-- One byte: the width of every register, memory cell, address, operand and ALU result (R5 DATA_WIDTH, ADDR_WIDTH). -/
abbrev Byte := BitVec 8

/-- The index of a general register, 0 to 7 (R5 NUM_REGS, R14). -/
abbrev RegIndex := Fin 8

/-- `wrap8(n) = n mod 256`, for any integer `n` (R7). -/
def wrap8 (n : Int) : Byte := BitVec.ofInt 8 n

end Sys2Proof
end

