-- ==== Sys2Proof/Config.lean ====
section
/-! DEFINITION. The parameters of CORE (spec/00_scope.md R5): the fixed ones as constants, the three configurable ones
as a record of plain data, which State holds and no step changes. The spec leaves no value open that needs a free value. -/

namespace Sys2Proof

/-- NOT_OPCODE (R5, R60): the two settings the spec names. -/
inductive NotOpcode where
  /-- The default: the byte 0x69 decodes as NOT. -/
  | x69
  /-- `none`: no byte decodes as NOT, and 0x69 is an unknown opcode. -/
  | absent
  deriving DecidableEq, Repr

/-- UNKNOWN_OPCODE_POLICY (R5, R61, R78). -/
inductive UnknownOpcodePolicy where
  /-- The default: an unknown opcode raises the fault DECODE. -/
  | fault
  /-- The reference's behaviour: an unknown opcode changes nothing but `ir`. -/
  | stall
  deriving DecidableEq, Repr

/-- UNINIT_POLICY (R5, R18, R39). -/
inductive UninitPolicy where
  /-- The default: reading an unwritten register or memory cell raises the fault UNINIT. -/
  | fault
  /-- An unwritten register or memory cell reads as 0. -/
  | zero
  deriving DecidableEq, Repr

/-- The three parameters that R5 says a model takes as arguments. -/
structure Params where
  notOpcode     : NotOpcode
  unknownOpcode : UnknownOpcodePolicy
  uninit        : UninitPolicy
  deriving DecidableEq, Repr

/-- The default of every configurable parameter (R5). -/
def Params.standard : Params := { notOpcode := .x69, unknownOpcode := .fault, uninit := .fault }

/-- MEM_SIZE (R5): the number of memory cells. -/
def memSize : Nat := 256

/-- SP_INDEX (R5, R16): the register used as the stack pointer. -/
def spIndex : RegIndex := 7

/-- SP_RESET (R5, R34). -/
def spReset : Byte := 0xF4

/-- PC_RESET (R5, R34). -/
def pcReset : Byte := 0

/-- LOAD_BASE (R5, R125): where the loader places byte 0 of the image. -/
def loadBase : Nat := 0

/-- The first address past the top of memory: the FAULT_INFO of every ADDRESS fault (R74, R107). -/
def addressPastTop : Nat := 256

end Sys2Proof
end

