-- ==== Sys2Proof/Machine/State.lean ====
section
/-! DEFINITION. The state of CORE as plain data: everything spec/10_state.md R33 lists, the memory array it reaches through its
port (spec/20_memory.md R35), and the three parameters of spec/00_scope.md R5. -/

namespace Sys2Proof.Machine

/-- The comparison flag (R23, R24): four values, no bit patterns. -/
inductive Flag where
  /-- No COMPARE has executed since reset. -/
  | unset
  | equal
  | greater
  | less
  deriving DecidableEq, Repr

/-- The loop controller's status (R29). -/
inductive Status where
  | idle
  | running
  | halted
  | faulted
  deriving DecidableEq, Repr

/-- FAULT_CAUSE (R107); `Cause.code` gives the codes 1 to 5. -/
inductive Cause where
  | decode
  | divZero
  | regIndex
  | address
  | uninit
  deriving DecidableEq, Repr

/-- FAULT_INFO (R107). -/
inductive FaultInfo where
  /-- A number: the opcode byte (DECODE), the divisor's register index (DIV_ZERO), the operand byte (REG_INDEX), 256
  (ADDRESS). -/
  | number (n : Nat)
  /-- (REG, i): an unwritten register was read. -/
  | reg (i : RegIndex)
  /-- (MEM, address): an unwritten memory cell was read. -/
  | mem (addr : Byte)
  /-- (FLAG, 0): the flag was read while UNSET. -/
  | flag
  deriving DecidableEq, Repr

/-- The fault record (R31): meaningful only when the status is FAULTED. -/
structure FaultRecord where
  cause : Cause
  pc    : Byte
  info  : FaultInfo
  deriving DecidableEq, Repr

/-- The 256-byte memory array: the written cells as (address, byte) pairs, addresses strictly rising and below 256
(`Memory.wf`). A cell that is not listed is unwritten (R39). -/
abbrev Memory := List Host.Cell

/-- The machine's state (R33). `regs` and `written` are "the registers R0 to R7 and their written marks": the mark of R`i` for
`i` from 0 to 6 stands at place `i` of `written`, and R7 has none, because R7 is always written (R18). -/
structure State where
  /-- The three configurable parameters (R5). Fixed for a machine: no step and no host action changes them. -/
  params      : Params
  /-- R0 to R7 (R14); R7 is the stack pointer (R16). -/
  regs        : Vector Byte 8
  /-- The written marks of R0 to R6 (R18). -/
  written     : Vector Bool 7
  /-- The program counter: the address of the opcode of the instruction being executed (R20). -/
  pc          : Byte
  /-- The comparison flag (R23). -/
  flag        : Flag
  /-- The instruction register: the opcode byte last fetched (R25). -/
  ir          : Byte
  /-- The loop controller's status (R29). -/
  status      : Status
  /-- FAULT_CAUSE, FAULT_PC and FAULT_INFO (R31). -/
  faultRecord : FaultRecord
  /-- The output history, oldest byte first (R32). -/
  output      : List Byte
  /-- The memory array outside CORE (R35, R39). -/
  mem         : Memory
  deriving DecidableEq, Repr

/-- What can stop a step outside the machine's own fault mechanism: nothing. Every fault of the spec is an effect the spec
describes (status FAULTED and the fault record, R115), so it is taken as a NEXT state, and this type has no constructor
(safe: no behaviour of the spec is cut off by it). -/
inductive Fault where
  deriving DecidableEq, Repr

/-- Why a move is refused. No instruction and no step is refused; the two refusals after `notModelled` are the host's moves
that the spec says no model has (spec/93_implementation_defined.md U17, U18). -/
inductive Refusal where
  /-- `exec`'s arm of an instruction without a meaning: no arm raises it (safe). -/
  | notModelled (mnemonic : String)
  /-- `loadImage` in a status other than IDLE: the host writes memory only while IDLE (R51, R129; safe). -/
  | loadOutsideIdle
  /-- `loadImage` of more than 256 bytes: N is at most 256 (R125; safe). -/
  | imageTooLong
  deriving DecidableEq, Repr

/-- The outcome of an instruction or a step. -/
abbrev Result := Host.Outcome State Fault Refusal

/-- The fault record right after reset. DESIGN CHOICE (log entry 3): the spec leaves it unspecified (R34), and it is
meaningful only in FAULTED. -/
def FaultRecord.atReset : FaultRecord := { cause := .decode, pc := 0, info := .number 0 }

/-- The machine with parameters `p` right after reset (R34, R124). The values of R0 to R6 (never read while unwritten: log
entry 1), `ir` (log entry 2) and the fault record (log entry 3) are DESIGN CHOICE; every other value is R34's. -/
def State.resetWith (p : Params) : State where
  params      := p
  regs        := #v[0, 0, 0, 0, 0, 0, 0, spReset]
  written     := #v[false, false, false, false, false, false, false]
  pc          := pcReset
  flag        := .unset
  ir          := 0
  status      := .idle
  faultRecord := .atReset
  output      := []
  mem         := []

/-- The machine right after reset, with the default parameters (R5, R34). -/
def State.reset : State := .resetWith .standard

end Sys2Proof.Machine
end

