-- ==== Sys2Proof/Machine/Ops.lean ====
section
/-! DEFINITION. The named operations over memory, registers and the other fields of State, and taking a fault. -/

namespace Sys2Proof.Machine

/-- The canonical form of a memory: addresses strictly rising and inside the address space (R35). No listed byte can equal
what an unlisted cell reads as, since an unlisted cell reads as no byte (`Memory.unlisted`). -/
abbrev Memory.wf (m : Memory) : Prop := m.Pairwise (fun c d => c.1 < d.1) ∧ ∀ c ∈ m, c.1 < 256

/-- What an unlisted cell reads as: UNWRITTEN, no byte (R11, R39). -/
def Memory.unlisted : Option Byte := none

/-- The memory port's read: the byte of the cell, or none where it is UNWRITTEN (R11). -/
def Memory.read : Memory → Nat → Option Byte
  | [], _ => Memory.unlisted
  | (a, v) :: m, addr => if a = addr then some v else Memory.read m addr

/-- The memory port's write: the cell holds the byte and becomes written (R11, R38). -/
def Memory.write : Memory → Nat → Byte → Memory
  | [], addr, v => [(addr, v)]
  | (a, w) :: m, addr, v =>
    if addr < a then (addr, v) :: (a, w) :: m
    else if addr = a then (addr, v) :: m
    else (a, w) :: Memory.write m addr v

/-- Writing a list of bytes at rising addresses from `start` (R125: in file order). -/
def Memory.writeFrom : Memory → Nat → List Byte → Memory
  | m, _, [] => m
  | m, start, b :: bs => Memory.writeFrom (m.write start b) (start + 1) bs

/-- The cell at an address as the port reads it, whatever the UNINIT_POLICY: none for UNWRITTEN. -/
def State.readByte (s : State) (addr : Byte) : Option Byte := s.mem.read addr.toNat

/-- `MemRead(addr, 1)` (R37): the byte, 0 for an unwritten cell under UNINIT_POLICY = ZERO, none where the read faults. -/
def State.loadByte (s : State) (addr : Byte) : Option Byte :=
  match s.readByte addr with
  | some v => some v
  | none =>
    match s.params.uninit with
    | .zero => some 0
    | .fault => none

/-- `MemWrite(addr, 1, v)` (R38). -/
def State.writeByte (s : State) (addr v : Byte) : State := { s with mem := s.mem.write addr.toNat v }

/-- The written mark of a register; R7 is always written (R18). -/
def State.isWritten (s : State) (i : RegIndex) : Bool := if h : i.val < 7 then s.written[i.val] else true

/-- The value of a register, 0 where it is unwritten: what a read gives wherever it does not fault (R18). -/
def State.reg (s : State) (i : RegIndex) : Byte := if s.isWritten i then s.regs[i.val] else 0

/-- Reading register `i` (R18): its value, or none where the read faults. -/
def State.readReg (s : State) (i : RegIndex) : Option Byte :=
  if s.isWritten i then some (s.reg i)
  else
    match s.params.uninit with
    | .zero => some (s.reg i)
    | .fault => none

/-- `x[i] <- v` (R7): the register holds the byte and becomes written (R18). -/
def State.setReg (s : State) (i : RegIndex) (v : Byte) : State :=
  { s with
    regs := s.regs.set i.val v
    written := if h : i.val < 7 then s.written.set i.val true else s.written }

/-- The stack pointer: another name for `x[7]` (R7, R16). -/
def State.sp (s : State) : Byte := s.reg spIndex

/-- `pc <- t` (R7). -/
def State.setPc (s : State) (t : Byte) : State := { s with pc := t }

/-- `flag <- F` (R7). -/
def State.setFlag (s : State) (f : Flag) : State := { s with flag := f }

/-- `ir <- op` (R25). -/
def State.setIr (s : State) (op : Byte) : State := { s with ir := op }

/-- `status <- st` (R29). -/
def State.setStatus (s : State) (st : Status) : State := { s with status := st }

/-- `out(v)`: one event on the output port, appended to the output history (R12, R32). -/
def State.emit (s : State) (v : Byte) : State := { s with output := s.output ++ [v] }

/-- The address a push writes to: `wrap8(x[7] − 1)` (R44). -/
def State.pushAddr (s : State) : Byte := wrap8 ((s.sp.toNat : Int) - 1)

/-- The stack pointer after a pop: `wrap8(x[7] + 1)` (R44). -/
def State.popSp (s : State) : Byte := wrap8 ((s.sp.toNat : Int) + 1)

/-- The code of a fault cause (R107). -/
def Cause.code : Cause → Nat
  | .decode => 1
  | .divZero => 2
  | .regIndex => 3
  | .address => 4
  | .uninit => 5

/-- Taking a fault (R115): status FAULTED, and the fault record with the pc of the faulting instruction. Nothing else changes
(R71). There is no vector, no saved status, and no return from a fault (R116): only `State.applyReset` leaves FAULTED. -/
def takeFault (cause : Cause) (info : FaultInfo) (s : State) : State :=
  { s with status := .faulted, faultRecord := { cause := cause, pc := s.pc, info := info } }

/-- `raise Fault(cause, info)` (R7): the instruction ends with the fault, which is an effect and not a stop of the model. -/
def raise (cause : Cause) (info : FaultInfo) (s : State) : Result := .next (takeFault cause info s)

end Sys2Proof.Machine
end

