-- ==== Sys2Proof/Machine/Operands.lean ====
section
/-! DEFINITION. The operand forms and the checks C5, C6, C9 and C10 of spec/40_execution_cycle.md R70. Each check is given the
rest of the instruction, which runs where the check passes; where it fails the fault is raised on the state as it was before
the instruction. -/

namespace Sys2Proof.Machine

/-- A register-index operand (R55): the whole byte, 0 to 7, no bit masked. -/
def regIndex? (b : Byte) : Option RegIndex := if h : b.toNat < 8 then some ⟨b.toNat, h⟩ else none

/-- Check C5: the operand byte names a register, else `Fault(REG_INDEX, byte)`. -/
def withIndex (b : Byte) (s : State) (k : RegIndex → Result) : Result :=
  match regIndex? b with
  | some i => k i
  | none => raise .regIndex (.number b.toNat) s

/-- Check C6: the register can be read, else `Fault(UNINIT, (REG, i))`; the rest is given its value. -/
def withReg (i : RegIndex) (s : State) (k : Byte → Result) : Result :=
  match s.readReg i with
  | some v => k v
  | none => raise .uninit (.reg i) s

/-- Check C9, on the cell at the stack pointer: it can be read, else `Fault(UNINIT, (MEM, x[7]))`; the rest is given its byte. -/
def withStackByte (s : State) (k : Byte → Result) : Result :=
  match s.loadByte s.sp with
  | some v => k v
  | none => raise .uninit (.mem s.sp) s

/-- Check C10: `pc + n`, computed without wrapping, is an address (R74), else `Fault(ADDRESS, 256)`; the rest is given it. -/
def withPcPlus (n : Nat) (s : State) (k : Byte → Result) : Result :=
  if s.pc.toNat + n ≤ 255 then k (BitVec.ofNat 8 (s.pc.toNat + n)) else raise .address (.number addressPastTop) s

/-- The common part of the one-register instructions that read their register: C5, then C6. -/
def withOperand (a : Byte) (s : State) (k : RegIndex → Byte → Result) : Result :=
  withIndex a s fun i => withReg i s fun x => k i x

/-- The common part of the two-register instructions: C5 on a then b, then C6 on a then b. -/
def withOperands (a b : Byte) (s : State) (k : RegIndex → RegIndex → Byte → Byte → Result) : Result :=
  withIndex a s fun i => withIndex b s fun j => withReg i s fun x => withReg j s fun y => k i j x y

end Sys2Proof.Machine
end

