-- ==== Sys2Proof/Machine/Alu.lean ====
section
/-! DEFINITION. The ALU and its ten instructions (spec/00_scope.md R10, spec/43_alu.md). -/

namespace Sys2Proof.Machine

/-- The operation tag of the ALU: a closed enumeration of ten (R10). -/
inductive AluOp where
  | add | sub | mul | div | and | or | xor | not | shl | shr
  deriving DecidableEq, Repr

/-- NOT on a byte: `255 − a` (R93, R103). -/
def aluNot (a : Byte) : Byte := wrap8 (255 - (a.toNat : Int))

/-- `alu(op, a, b)` (R93): computed on exact integers and narrowed at the end; none is DivByZero. -/
def alu (op : AluOp) (a b : Byte) : Option Byte :=
  match op with
  | .add => some (wrap8 ((a.toNat : Int) + b.toNat))
  | .sub => some (wrap8 ((a.toNat : Int) - b.toNat))
  | .mul => some (wrap8 ((a.toNat : Int) * b.toNat))
  | .div => if b = 0 then none else some (wrap8 ((a.toNat / b.toNat : Nat) : Int))
  | .and => some (a &&& b)
  | .or => some (a ||| b)
  | .xor => some (a ^^^ b)
  | .not => some (aluNot a)
  | .shl => some (wrap8 ((a.toNat <<< b.toNat : Nat) : Int))
  | .shr => some (wrap8 ((a.toNat >>> b.toNat : Nat) : Int))

/-- The shape of the two-register ALU instructions (R94): C5 and C6, C8 for DIV, C10, then the write in place. -/
def aluTwo (op : AluOp) (a b : Byte) (s : State) : Result :=
  withOperands a b s fun i j x y =>
    match alu op x y with
    | none => raise .divZero (.number j.val) s
    | some v => withPcPlus 3 s fun pc' => .next ((s.setReg i v).setPc pc')

/-- ADD (R96). -/
def execAdd (a b : Byte) (s : State) : Result := aluTwo .add a b s

/-- SUB (R97). -/
def execSub (a b : Byte) (s : State) : Result := aluTwo .sub a b s

/-- MUL (R98). -/
def execMul (a b : Byte) (s : State) : Result := aluTwo .mul a b s

/-- DIV (R99). -/
def execDiv (a b : Byte) (s : State) : Result := aluTwo .div a b s

/-- AND (R100). -/
def execAnd (a b : Byte) (s : State) : Result := aluTwo .and a b s

/-- OR (R101). -/
def execOr (a b : Byte) (s : State) : Result := aluTwo .or a b s

/-- XOR (R102). -/
def execXor (a b : Byte) (s : State) : Result := aluTwo .xor a b s

/-- NOT (R103): one register, the one-register shape. -/
def execNot (a : Byte) (s : State) : Result :=
  withOperand a s fun i x => withPcPlus 2 s fun pc' => .next ((s.setReg i (aluNot x)).setPc pc')

/-- SHL (R104). -/
def execShl (a b : Byte) (s : State) : Result := aluTwo .shl a b s

/-- SHR (R105). -/
def execShr (a b : Byte) (s : State) : Result := aluTwo .shr a b s

end Sys2Proof.Machine
end

