-- ==== Sys2Proof/Machine/Flags.lean ====
section
/-! DEFINITION. The comparison flag: what COMPARE computes, and check C7 with the branch conditions of the conditional jumps. No
other instruction reads or writes it (spec/10_state.md R23). -/

namespace Sys2Proof.Machine

/-- COMPARE's flag, from an unsigned comparison (R89). -/
def compareFlag (x y : Byte) : Flag :=
  if x.toNat < y.toNat then .less else if y.toNat < x.toNat then .greater else .equal

/-- The branch dispatch of R84, with check C7: the rest is told whether the flag is EQUAL, and an UNSET flag raises
`Fault(UNINIT, (FLAG, 0))`, whatever the UNINIT_POLICY (R112). -/
def withFlagEqual (s : State) (k : Bool → Result) : Result :=
  match s.flag with
  | .unset => raise .uninit .flag s
  | .equal => k true
  | .greater => k false
  | .less => k false

end Sys2Proof.Machine
end

