-- ==== Sys2Proof/Machine/RegisterStack.lean ====
section
/-! DEFINITION. LOAD_IMMEDIATE, PRINT_REG, PUSH and POP (spec/41_register_and_stack.md). The writes stand in the order of each
rule's pseudocode, so a later read sees an earlier write (spec/40_execution_cycle.md R72). -/

namespace Sys2Proof.Machine

/-- LOAD_IMMEDIATE (R80): the immediate is stored unchanged, and no register is read. -/
def execLoadImmediate (a imm : Byte) (s : State) : Result :=
  withIndex a s fun i => withPcPlus 3 s fun pc' => .next ((s.setReg i imm).setPc pc')

/-- PRINT_REG (R81): one output event. -/
def execPrintReg (a : Byte) (s : State) : Result :=
  withOperand a s fun _ x => withPcPlus 2 s fun pc' => .next ((s.emit x).setPc pc')

/-- A push (R44): the stack pointer is decremented first, then the byte that `v` reads from that state is written there. -/
def pushByte (v : State → Byte) (s : State) : State :=
  let s1 := s.setReg spIndex s.pushAddr
  s1.writeByte s.pushAddr (v s1)

/-- PUSH (R82): the register is read after the stack pointer has moved, so PUSH r7 stores the decremented pointer. -/
def execPush (a : Byte) (s : State) : Result :=
  withOperand a s fun i _ => withPcPlus 2 s fun pc' => .next ((pushByte (fun s1 => s1.reg i) s).setPc pc')

/-- POP (R83): the register is written before the stack pointer is incremented, so POP r7 leaves the popped byte plus 1. -/
def execPop (a : Byte) (s : State) : Result :=
  withIndex a s fun i =>
    withStackByte s fun v =>
      withPcPlus 2 s fun pc' =>
        let s1 := s.setReg i v
        .next ((s1.setReg spIndex s1.popSp).setPc pc')

end Sys2Proof.Machine
end

