-- ==== Sys2Proof/Machine/ControlTransfer.lean ====
section
/-! DEFINITION. CALL, RETURN, COMPARE, JUMP_IF_EQUAL, JUMP_IF_NOT_EQUAL and JUMP (spec/42_control_transfer.md), and HALT
(spec/40_execution_cycle.md R79). A target is used as it is, and never faults at the transfer (R85). -/

namespace Sys2Proof.Machine

/-- CALL (R87): the return address is pushed, and the target register is read after that, so CALL r7 goes to the decremented
stack pointer. -/
def execCall (a : Byte) (s : State) : Result :=
  withOperand a s fun i _ =>
    withPcPlus 2 s fun ret =>
      let s1 := pushByte (fun _ => ret) s
      .next (s1.setPc (s1.reg i))

/-- RETURN (R88). -/
def execRet (s : State) : Result :=
  withStackByte s fun v => .next ((s.setReg spIndex s.popSp).setPc v)

/-- COMPARE (R89). -/
def execCompare (a b : Byte) (s : State) : Result :=
  withOperands a b s fun _ _ x y => withPcPlus 3 s fun pc' => .next ((s.setFlag (compareFlag x y)).setPc pc')

/-- A conditional jump's end: taken to the target, or on to `pc + 2`, which only then is checked (R90, R91). -/
def branch (taken : Bool) (target : Byte) (s : State) : Result :=
  if taken then .next (s.setPc target) else withPcPlus 2 s fun pc' => .next (s.setPc pc')

/-- JUMP_IF_EQUAL (R90): C5 and C6 on its register whether or not the jump is taken, then C7. -/
def execJumpIfEqual (a : Byte) (s : State) : Result :=
  withOperand a s fun _ x => withFlagEqual s fun eq => branch eq x s

/-- JUMP_IF_NOT_EQUAL (R91). -/
def execJumpIfNotEqual (a : Byte) (s : State) : Result :=
  withOperand a s fun _ x => withFlagEqual s fun eq => branch (!eq) x s

/-- JUMP (R92). -/
def execJump (a : Byte) (s : State) : Result := withOperand a s fun _ x => .next (s.setPc x)

/-- HALT (R79): the pc is not advanced. -/
def execHalt (s : State) : Result := .next (s.setStatus .halted)

end Sys2Proof.Machine
end

