-- ==== Sys2Proof/Syntax.lean ====
section
/-! DEFINITION. The instruction set: one constructor per row of spec/opcode_table.json (spec/30_encoding.md R57), in the
table's order. An operand is the operand byte as fetched: a register operand of 8 or more is an instruction that raises
REG_INDEX (R55), so it is a term of `Instr` that `Instr.wellFormed` rejects, and not something the decoder rejects. -/

namespace Sys2Proof

/-- An instruction with its operand bytes: `a` is the byte at pc+1, `b` (or `imm`) the byte at pc+2 (R53). -/
inductive Instr where
  | halt
  | ret
  | push (a : Byte)
  | pop (a : Byte)
  | printReg (a : Byte)
  | call (a : Byte)
  | jump (a : Byte)
  | jumpIfEqual (a : Byte)
  | jumpIfNotEqual (a : Byte)
  | not (a : Byte)
  | loadImmediate (a imm : Byte)
  | add (a b : Byte)
  | sub (a b : Byte)
  | mul (a b : Byte)
  | div (a b : Byte)
  | compare (a b : Byte)
  | and (a b : Byte)
  | or (a b : Byte)
  | xor (a b : Byte)
  | shl (a b : Byte)
  | shr (a b : Byte)
  deriving DecidableEq, Repr

end Sys2Proof
end

