-- ==== Sys2Proof/WellFormed.lean ====
section
/-! DEFINITION. Which instructions are well formed (spec/30_encoding.md R54, R55): every register operand is 0 to 7. The
immediate of LOAD_IMMEDIATE takes all 256 values. -/

namespace Sys2Proof

/-- A register operand names a register: 0 to 7, with no bit masked (R55). -/
def regOperandOk (b : Byte) : Bool := decide (b.toNat < 8)

/-- The operand byte that names register `i` (R55). -/
def regByte (i : RegIndex) : Byte := BitVec.ofNat 8 i.val

/-- Every register operand of the instruction names a register. -/
def Instr.wellFormed : Instr → Bool
  | .halt => true
  | .ret => true
  | .push a => regOperandOk a
  | .pop a => regOperandOk a
  | .printReg a => regOperandOk a
  | .call a => regOperandOk a
  | .jump a => regOperandOk a
  | .jumpIfEqual a => regOperandOk a
  | .jumpIfNotEqual a => regOperandOk a
  | .not a => regOperandOk a
  | .loadImmediate a _ => regOperandOk a
  | .add a b => regOperandOk a && regOperandOk b
  | .sub a b => regOperandOk a && regOperandOk b
  | .mul a b => regOperandOk a && regOperandOk b
  | .div a b => regOperandOk a && regOperandOk b
  | .compare a b => regOperandOk a && regOperandOk b
  | .and a b => regOperandOk a && regOperandOk b
  | .or a b => regOperandOk a && regOperandOk b
  | .xor a b => regOperandOk a && regOperandOk b
  | .shl a b => regOperandOk a && regOperandOk b
  | .shr a b => regOperandOk a && regOperandOk b

end Sys2Proof
end

