-- ==== Sys2Proof/Decode.lean ====
section
/-! DEFINITION. The decoder (spec/30_encoding.md R52 to R63): from an opcode byte to a row of the opcode table or the verdict
"unknown", from a list of bytes to an instruction, and, after it, the encoder. -/

namespace Sys2Proof

/-- The row of R57 an opcode selects: the decoder's verdict, before any operand is looked at (R63, R69). -/
inductive Op where
  | halt | ret | push | pop | printReg | call | jump | jumpIfEqual | jumpIfNotEqual | not | loadImmediate
  | add | sub | mul | div | compare | and | or | xor | shl | shr
  deriving DecidableEq, Repr

/-- The four formats of R54. -/
inductive Format where
  /-- Opcode alone. -/
  | z
  /-- Opcode, register. -/
  | r
  /-- Opcode, register, register. -/
  | rr
  /-- Opcode, register, immediate. -/
  | ri
  deriving DecidableEq, Repr

/-- The operand count `n` of a format (R52, R54). -/
def Format.operands : Format → Nat
  | .z => 0
  | .r => 1
  | .rr => 2
  | .ri => 2

/-- The opcode column of R57. -/
def Op.opcode : Op → Byte
  | .halt => 0x01
  | .ret => 0x11
  | .push => 0x45
  | .pop => 0x46
  | .printReg => 0x47
  | .call => 0x50
  | .jump => 0x54
  | .jumpIfEqual => 0x55
  | .jumpIfNotEqual => 0x56
  | .not => 0x69
  | .loadImmediate => 0x82
  | .add => 0xA0
  | .sub => 0xA1
  | .mul => 0xA2
  | .div => 0xA3
  | .compare => 0xA7
  | .and => 0xA8
  | .or => 0xAA
  | .xor => 0xAB
  | .shl => 0xAC
  | .shr => 0xAD

/-- The format column of R57. -/
def Op.format : Op → Format
  | .halt => .z
  | .ret => .z
  | .push => .r
  | .pop => .r
  | .printReg => .r
  | .call => .r
  | .jump => .r
  | .jumpIfEqual => .r
  | .jumpIfNotEqual => .r
  | .not => .r
  | .loadImmediate => .ri
  | .add => .rr
  | .sub => .rr
  | .mul => .rr
  | .div => .rr
  | .compare => .rr
  | .and => .rr
  | .or => .rr
  | .xor => .rr
  | .shl => .rr
  | .shr => .rr

/-- `len = 1 + n` (R52). -/
def Op.length (o : Op) : Nat := 1 + o.format.operands

/-- The rows of R57. -/
def Op.all : List Op :=
  [.halt, .ret, .push, .pop, .printReg, .call, .jump, .jumpIfEqual, .jumpIfNotEqual, .not, .loadImmediate,
   .add, .sub, .mul, .div, .compare, .and, .or, .xor, .shl, .shr]

/-- The rows that have an encoding: all of them, or all but NOT under NOT_OPCODE = `none` (R60). -/
def opcodeRows : NotOpcode → List Op
  | .x69 => Op.all
  | .absent => Op.all.filter fun o => o != .not

/-- The decoder on an opcode byte: the one row with this opcode, or none where the byte is unknown (R61, R63). -/
def decodeOpcode (n : NotOpcode) (b : Byte) : Option Op := (opcodeRows n).find? fun o => o.opcode == b

/-- The instruction of a row with its operand bytes; an operand the row does not have is ignored (R53). -/
def Op.build (o : Op) (a b : Byte) : Instr :=
  match o with
  | .halt => .halt
  | .ret => .ret
  | .push => .push a
  | .pop => .pop a
  | .printReg => .printReg a
  | .call => .call a
  | .jump => .jump a
  | .jumpIfEqual => .jumpIfEqual a
  | .jumpIfNotEqual => .jumpIfNotEqual a
  | .not => .not a
  | .loadImmediate => .loadImmediate a b
  | .add => .add a b
  | .sub => .sub a b
  | .mul => .mul a b
  | .div => .div a b
  | .compare => .compare a b
  | .and => .and a b
  | .or => .or a b
  | .xor => .xor a b
  | .shl => .shl a b
  | .shr => .shr a b

/-- What decoding a list of bytes gives. -/
inductive Decoded where
  /-- An instruction, and the bytes after it. -/
  | ok (i : Instr) (rest : List Byte)
  /-- The first byte is no opcode (R61). -/
  | unknownOpcode (b : Byte)
  /-- The list ends before the instruction does. -/
  | truncated
  deriving DecidableEq, Repr

/-- Decoding a list of bytes, the first at the lowest address: total, and rejecting by name (R52 to R54, R63). -/
def decode (n : NotOpcode) (bytes : List Byte) : Decoded :=
  match bytes with
  | [] => .truncated
  | op :: rest =>
    match decodeOpcode n op with
    | none => .unknownOpcode op
    | some o =>
      match o.format.operands, rest with
      | 0, rest => .ok (o.build 0 0) rest
      | 1, a :: rest => .ok (o.build a 0) rest
      | _, a :: b :: rest => .ok (o.build a b) rest
      | _, _ => .truncated

/-- The bytes of an instruction, in increasing address order, row by row from R57 (opcodes) and R54 (formats). -/
def encode : Instr → List Byte
  | .halt => [0b00000001]
  | .ret => [0b00010001]
  | .push a => [0b01000101, a]
  | .pop a => [0b01000110, a]
  | .printReg a => [0b01000111, a]
  | .call a => [0b01010000, a]
  | .jump a => [0b01010100, a]
  | .jumpIfEqual a => [0b01010101, a]
  | .jumpIfNotEqual a => [0b01010110, a]
  | .not a => [0b01101001, a]
  | .loadImmediate a imm => [0b10000010, a, imm]
  | .add a b => [0b10100000, a, b]
  | .sub a b => [0b10100001, a, b]
  | .mul a b => [0b10100010, a, b]
  | .div a b => [0b10100011, a, b]
  | .compare a b => [0b10100111, a, b]
  | .and a b => [0b10101000, a, b]
  | .or a b => [0b10101010, a, b]
  | .xor a b => [0b10101011, a, b]
  | .shl a b => [0b10101100, a, b]
  | .shr a b => [0b10101101, a, b]

/-- The bytes of a word of `nbits` bits numbered as spec/opcode_table.json numbers them (bit 0 is the least significant bit
of the first byte), up to the longest instruction (MAX_INSTR_LEN = 3, R5): every bit above `nbits` is 0. -/
def tableBytes (nbits w : Nat) : List Byte :=
  let v := w % 2 ^ nbits
  [BitVec.ofNat 8 v, BitVec.ofNat 8 (v / 2 ^ 8), BitVec.ofNat 8 (v / 2 ^ 16)]

/-- The instruction the decoder reads from a table word, under the default NOT_OPCODE. -/
def decodeTableWord (nbits w : Nat) : Option Instr :=
  match decode Params.standard.notOpcode (tableBytes nbits w) with
  | .ok i _ => some i
  | .unknownOpcode _ => none
  | .truncated => none

end Sys2Proof
end

