-- ==== Sys2Proof/Machine/Fetch.lean ====
section
/-! DEFINITION. The fetch and decode phases of a Step, with the checks C1 to C4 (spec/40_execution_cycle.md R67 to R70, R78). -/

namespace Sys2Proof.Machine

/-- What the fetch and decode phases give. -/
inductive Fetched where
  /-- An instruction to execute, in the state with `ir` loaded. -/
  | run (i : Instr) (s : State)
  /-- The Step ends here: one of C1 to C4 failed and its fault is taken, or an unknown opcode stalls (R78). -/
  | stop (s : State)
  deriving DecidableEq, Repr

/-- The operand bytes of a row whose bytes all lie below address 256: operand a at pc+1, then operand b at pc+2, as far as the
row has them (R53, R68), with check C4 on each. -/
def fetchOperands (o : Op) (s : State) : Fetched :=
  match o.format.operands with
  | 0 => .run (o.build 0 0) s
  | 1 =>
    match s.loadByte (s.pc + 1) with
    | none => .stop (takeFault .uninit (.mem (s.pc + 1)) s)
    | some a => .run (o.build a 0) s
  | _ =>
    match s.loadByte (s.pc + 1) with
    | none => .stop (takeFault .uninit (.mem (s.pc + 1)) s)
    | some a =>
      match s.loadByte (s.pc + 2) with
      | none => .stop (takeFault .uninit (.mem (s.pc + 2)) s)
      | some b => .run (o.build a b) s

/-- An unknown opcode (C2): the fault DECODE, or the stall, which leaves everything but `ir` unchanged (R61, R78, R108). -/
def unknownOpcode (op : Byte) (s : State) : State :=
  match s.params.unknownOpcode with
  | .fault => takeFault .decode (.number op.toNat) s
  | .stall => s

/-- Fetch and decode (R67): C1 on the opcode's cell; `ir` is loaded; C2; C3, the instruction's bytes end at or below address
255; then the operand bytes. -/
def fetch (s : State) : Fetched :=
  match s.loadByte s.pc with
  | none => .stop (takeFault .uninit (.mem s.pc) s)
  | some op =>
    let s1 := s.setIr op
    match decodeOpcode s.params.notOpcode op with
    | none => .stop (unknownOpcode op s1)
    | some o =>
      if 255 < s.pc.toNat + o.length - 1 then .stop (takeFault .address (.number addressPastTop) s1)
      else fetchOperands o s1

end Sys2Proof.Machine
end

