-- ==== Sys2Proof/Machine/Step.lean ====
section
/-! DEFINITION. One Step (spec/40_execution_cycle.md R67, R77), and the placing of one instruction where the next Step fetches. -/

namespace Sys2Proof.Machine

/-- One Step: exactly one instruction, or one fault, while the status is RUNNING (R67); nothing in any other status (R77). -/
def step (s : State) : Host.Outcome State Fault Refusal :=
  match s.status with
  | .running =>
    match fetch s with
    | .run i s1 => exec i s1
    | .stop s1 => .next s1
  | .idle => .next s
  | .halted => .next s
  | .faulted => .next s

/-- `s` with the bytes of a table word written at pc, pc+1 and pc+2 (as far as address 255) and the status RUNNING: the effect
of the loader's writes and of Start (R125, R126), so that the very next Step runs that instruction (log entry 5). -/
def State.withFetchWord (s : State) (nbits w : Nat) : State :=
  { s with
    status := .running
    mem := s.mem.writeFrom s.pc.toNat ((tableBytes nbits w).take (memSize - s.pc.toNat)) }

end Sys2Proof.Machine
end

