-- ==== Sys2Proof/Machine/HostPort.lean ====
section
/-! DEFINITION. What the host may do to CORE, and what CORE gives back (spec/70_reset_and_hazards.md R124 to R129,
spec/00_scope.md R9 to R13). -/

namespace Sys2Proof.Machine

/-- `Reset`, in any status (R124): the reset state of this machine, whose parameters stay. -/
def State.applyReset (s : State) : State := .resetWith s.params

/-- `Start` (R126): IDLE goes to RUNNING; in any other status it has no effect. -/
def State.applyStart (s : State) : State :=
  match s.status with
  | .idle => s.setStatus .running
  | .running => s
  | .halted => s
  | .faulted => s

/-- Loading the image (R125): only in IDLE, at most 256 bytes, at addresses 0 to N−1 in file order. -/
def loadImage (image : List Byte) (s : State) : Result :=
  if s.status = .idle then
    if image.length ≤ memSize then .next { s with mem := s.mem.writeFrom loadBase image } else .refused .imageTooLong
  else .refused .loadOutsideIdle

/-- The host's moves that act on the machine (R129). -/
inductive HostAction where
  | reset
  | load (image : List Byte)
  | start
  | step
  deriving DecidableEq, Repr

/-- The effect of a host's move (R129). -/
def act (m : HostAction) (s : State) : Result :=
  match m with
  | .reset => .next s.applyReset
  | .load image => loadImage image s
  | .start => .next s.applyStart
  | .step => step s

/-- "Read status and fault record" (R13, R129): the fault record only when FAULTED. -/
def State.statusOutputs (s : State) : Status × Option FaultRecord :=
  (s.status, if s.status = .faulted then some s.faultRecord else none)

end Sys2Proof.Machine
end

