-- ==== Sys2Proof/Safety.lean ====
section
/-! DEFINITION. The terms the statements use: how a run ends, what a frame says, how a fault is taken, the tables of spec/10_state.md
R19 and spec/40_execution_cycle.md R70 written from the spec (not from the meanings), and the machine's invariant. -/

namespace Sys2Proof.Machine

/-- A run has ended normally: the status is HALTED (R128). -/
abbrev State.endedNormally (s : State) : Prop := s.status = .halted

/-- A run has failed: the status is FAULTED (R128). -/
abbrev State.failed (s : State) : Prop := s.status = .faulted

/-- Register `i` can be read: it is written, or UNINIT_POLICY is ZERO (R18). -/
abbrev Readable (s : State) (i : RegIndex) : Prop := s.isWritten i = true ∨ s.params.uninit = .zero

/-- Every register but those listed keeps its value and its written mark. -/
abbrev SameRegsBut (changed : List RegIndex) (s t : State) : Prop :=
  ∀ j : RegIndex, j ∉ changed → t.reg j = s.reg j ∧ t.isWritten j = s.isWritten j

/-- Every memory cell reads as before. -/
abbrev SameBytes (s t : State) : Prop := ∀ a : Byte, t.readByte a = s.readByte a

/-- Every memory cell but the one at `addr` reads as before. -/
abbrev SameBytesBut (addr : Byte) (s t : State) : Prop := ∀ a : Byte, a ≠ addr → t.readByte a = s.readByte a

/-- The status, the fault record, `ir` and the parameters are unchanged. -/
abbrev SameController (s t : State) : Prop :=
  t.status = s.status ∧ t.faultRecord = s.faultRecord ∧ t.ir = s.ir ∧ t.params = s.params

/-- The outcome is the taking of a fault by the instruction at `s.pc`: status FAULTED, the fault record, and nothing else
(R71, R115). -/
abbrev TakesFault (r : Result) (s : State) (cause : Cause) (info : FaultInfo) : Prop :=
  r = .next { s with status := .faulted, faultRecord := { cause := cause, pc := s.pc, info := info } }

/-- The register an operand byte names, as a list of at most one. -/
def named (b : Byte) : List RegIndex := if h : b.toNat < 8 then [⟨b.toNat, h⟩] else []

/-- The "registers read" column of R19, in the order of operand a, operand b, then x[7]. -/
def regsRead : Instr → List RegIndex
  | .halt => []
  | .loadImmediate _ _ => []
  | .printReg a => named a
  | .push a => named a ++ [7]
  | .pop _ => [7]
  | .call a => named a ++ [7]
  | .ret => [7]
  | .compare a b => named a ++ named b
  | .jumpIfEqual a => named a
  | .jumpIfNotEqual a => named a
  | .jump a => named a
  | .add a b => named a ++ named b
  | .sub a b => named a ++ named b
  | .mul a b => named a ++ named b
  | .div a b => named a ++ named b
  | .and a b => named a ++ named b
  | .or a b => named a ++ named b
  | .xor a b => named a ++ named b
  | .shl a b => named a ++ named b
  | .shr a b => named a ++ named b
  | .not a => named a

/-- The "registers written" column of R19. -/
def regsWritten : Instr → List RegIndex
  | .halt => []
  | .loadImmediate a _ => named a
  | .printReg _ => []
  | .push _ => [7]
  | .pop a => named a ++ [7]
  | .call _ => [7]
  | .ret => [7]
  | .compare _ _ => []
  | .jumpIfEqual _ => []
  | .jumpIfNotEqual _ => []
  | .jump _ => []
  | .add a _ => named a
  | .sub a _ => named a
  | .mul a _ => named a
  | .div a _ => named a
  | .and a _ => named a
  | .or a _ => named a
  | .xor a _ => named a
  | .shl a _ => named a
  | .shr a _ => named a
  | .not a => named a

/-- The register-index operands of an instruction, operand a first (R54, R55). -/
def registerOperands : Instr → List Byte
  | .halt => []
  | .ret => []
  | .push a => [a]
  | .pop a => [a]
  | .printReg a => [a]
  | .call a => [a]
  | .jump a => [a]
  | .jumpIfEqual a => [a]
  | .jumpIfNotEqual a => [a]
  | .not a => [a]
  | .loadImmediate a _ => [a]
  | .add a b => [a, b]
  | .sub a b => [a, b]
  | .mul a b => [a, b]
  | .div a b => [a, b]
  | .compare a b => [a, b]
  | .and a b => [a, b]
  | .or a b => [a, b]
  | .xor a b => [a, b]
  | .shl a b => [a, b]
  | .shr a b => [a, b]

/-- `pc + k` of check C10, where the instruction in this state has one (R74, R75): its `k`. -/
def successorOffset (s : State) : Instr → Option Nat
  | .halt => none
  | .ret => none
  | .jump _ => none
  | .jumpIfEqual _ => if s.flag = .equal then none else some 2
  | .jumpIfNotEqual _ => if s.flag = .equal then some 2 else none
  | .call _ => some 2
  | .printReg _ => some 2
  | .push _ => some 2
  | .pop _ => some 2
  | .not _ => some 2
  | .loadImmediate _ _ => some 3
  | .compare _ _ => some 3
  | .add _ _ => some 3
  | .sub _ _ => some 3
  | .mul _ _ => some 3
  | .div _ _ => some 3
  | .and _ _ => some 3
  | .or _ _ => some 3
  | .xor _ _ => some 3
  | .shl _ _ => some 3
  | .shr _ _ => some 3

/-- Check C7's instructions. -/
def isConditionalJump : Instr → Bool
  | .jumpIfEqual _ => true
  | .jumpIfNotEqual _ => true
  | _ => false

/-- Check C8's operand: the divisor register of DIV. -/
def divisorOf : Instr → List RegIndex
  | .div _ b => named b
  | _ => []

/-- Check C9's instructions: those that read the cell at the stack pointer. -/
def readsStack : Instr → Bool
  | .pop _ => true
  | .ret => true
  | _ => false

/-- The first of the checks C5 to C10 of R70 that fails for an instruction, and the fault it raises. -/
def execFault (i : Instr) (s : State) : Option (Cause × FaultInfo) :=
  ((registerOperands i).find? fun b => decide (8 ≤ b.toNat)).map (fun b => (.regIndex, .number b.toNat))
  <|> ((regsRead i).find? fun r => !decide (Readable s r)).map (fun r => (.uninit, .reg r))
  <|> (if isConditionalJump i = true ∧ s.flag = .unset then some (.uninit, .flag) else none)
  <|> ((divisorOf i).find? fun r => decide (s.reg r = 0)).map (fun r => (.divZero, .number r.val))
  <|> (if readsStack i = true ∧ s.loadByte (s.reg 7) = none then some (.uninit, .mem (s.reg 7)) else none)
  <|> ((successorOffset s i).bind fun k => if 255 < s.pc.toNat + k then some (.address, .number 256) else none)

/-- The address `pc + k` of an operand byte that lies below 256. -/
def operandAddr (s : State) (k : Nat) : Byte := BitVec.ofNat 8 (s.pc.toNat + k)

/-- The first of the checks C1 to C10 of R70 that fails for the Step at this state, and the fault it raises. -/
def stepFault (s : State) : Option (Cause × FaultInfo) :=
  match s.loadByte s.pc with
  | none => some (.uninit, .mem s.pc)
  | some op =>
    match decodeOpcode s.params.notOpcode op with
    | none => some (.decode, .number op.toNat)
    | some o =>
      if 255 < s.pc.toNat + o.length - 1 then some (.address, .number 256)
      else if 1 ≤ o.format.operands ∧ s.loadByte (operandAddr s 1) = none then some (.uninit, .mem (operandAddr s 1))
      else if o.format.operands = 2 ∧ s.loadByte (operandAddr s 2) = none then some (.uninit, .mem (operandAddr s 2))
      else execFault (o.build ((s.loadByte (operandAddr s 1)).getD 0) ((s.loadByte (operandAddr s 2)).getD 0)) s

/-- The ground of a fault, as a fact about the state in which it is raised (R70, R107). -/
def FaultGround (s : State) (cause : Cause) (info : FaultInfo) : Prop :=
  match cause, info with
  | .decode, .number n => n = s.ir.toNat ∧ s.loadByte s.pc = some s.ir ∧ decodeOpcode s.params.notOpcode s.ir = none
  | .divZero, .number n => ∃ h : n < 8, s.reg ⟨n, h⟩ = 0
  | .regIndex, .number n => 8 ≤ n ∧ n < 256
  | .address, .number n => n = 256
  | .uninit, .reg i => s.isWritten i = false ∧ s.params.uninit = .fault
  | .uninit, .mem a => s.readByte a = none ∧ s.params.uninit = .fault
  | .uninit, .flag => s.flag = .unset
  | _, _ => False

/-- What the fault record of a FAULTED machine says is true of the machine's state: a fault wrote nothing, so its ground still
stands (R71, R115). -/
def RecordTrue (s : State) : Prop :=
  s.faultRecord.pc = s.pc ∧ FaultGround s s.faultRecord.cause s.faultRecord.info

/-- The machine's invariant: memory is canonical; a FAULTED machine's record is true of its state (R31, R71); a HALTED machine's
pc is the address of the HALT that executed (R79, R123). -/
structure Inv (s : State) : Prop where
  memory  : s.mem.wf
  faulted : s.status = .faulted → RecordTrue s
  halted  : s.status = .halted → s.loadByte s.pc = some 0x01 ∧ s.ir = 0x01

end Sys2Proof.Machine
end

