-- ==== Sys2Proof/Certificates/Slice0/Obligations.lean ====
section
/-! DEFINITION. The statements for the provers. Each per-instruction statement has the instruction's bytes, its completion
(with its frame), and its faults in the order of spec/40_execution_cycle.md R70. -/

namespace Sys2Proof.Claims

open Sys2Proof.Machine

/-- Check C5 of an instruction with one register operand. -/
def FaultsOnIndex (mk : Byte → Instr) : Prop :=
  ∀ (a : Byte) (s : State), 8 ≤ a.toNat → TakesFault (exec (mk a) s) s .regIndex (.number a.toNat)

/-- Check C6 of an instruction that reads its one register operand. -/
def FaultsOnUnwritten (mk : Byte → Instr) : Prop :=
  ∀ (i : RegIndex) (s : State), ¬ Readable s i → TakesFault (exec (mk (regByte i)) s) s .uninit (.reg i)

/-- Check C10 of an instruction that reads its one register operand and goes on at `pc + k`. -/
def FaultsPastTop (mk : Byte → Instr) (k : Nat) : Prop :=
  ∀ (i : RegIndex) (s : State), Readable s i → 255 < s.pc.toNat + k →
    TakesFault (exec (mk (regByte i)) s) s .address (.number 256)

/-- Checks C5 and C6 of an instruction with two register operands, operand a first. -/
def FaultsOnTwo (mk : Byte → Byte → Instr) : Prop :=
  (∀ (a b : Byte) (s : State), 8 ≤ a.toNat → TakesFault (exec (mk a b) s) s .regIndex (.number a.toNat)) ∧
  (∀ (i : RegIndex) (b : Byte) (s : State), 8 ≤ b.toNat →
    TakesFault (exec (mk (regByte i) b) s) s .regIndex (.number b.toNat)) ∧
  (∀ (i j : RegIndex) (s : State), ¬ Readable s i →
    TakesFault (exec (mk (regByte i) (regByte j)) s) s .uninit (.reg i)) ∧
  (∀ (i j : RegIndex) (s : State), Readable s i → ¬ Readable s j →
    TakesFault (exec (mk (regByte i) (regByte j)) s) s .uninit (.reg j))

/-- The completion of a two-register ALU instruction at one state: register `i` takes the byte of value `v` and becomes
written, the pc advances by 3, and nothing else changes. -/
def WritesInPlace (r : Result) (s : State) (i : RegIndex) (v len : Nat) : Prop :=
  ∃ t : State, r = .next t ∧ (t.reg i).toNat = v ∧ t.isWritten i = true ∧ t.pc.toNat = s.pc.toNat + len ∧
    SameRegsBut [i] s t ∧ SameBytes s t ∧ t.flag = s.flag ∧ t.output = s.output ∧ SameController s t

/-- The whole rule of a two-register ALU instruction that cannot divide by zero: its bytes, its result `f` in place
(R94), its faults C5, C6, C10. -/
def AluTwoRule (mk : Byte → Byte → Instr) (opcode : Byte) (f : Nat → Nat → Nat) : Prop :=
  (∀ a b : Byte, encode (mk a b) = [opcode, a, b]) ∧
  (∀ (i j : RegIndex) (s : State), Readable s i → Readable s j → s.pc.toNat + 3 ≤ 255 →
    WritesInPlace (exec (mk (regByte i) (regByte j)) s) s i (f (s.reg i).toNat (s.reg j).toNat) 3) ∧
  FaultsOnTwo mk ∧
  (∀ (i j : RegIndex) (s : State), Readable s i → Readable s j → 255 < s.pc.toNat + 3 →
    TakesFault (exec (mk (regByte i) (regByte j)) s) s .address (.number 256))

/-- The completion of a jump or a return at one state: the pc becomes `target`, and nothing else changes but the registers
listed. -/
def GoesTo (r : Result) (s : State) (target : Byte) (changed : List RegIndex) (t : State) : Prop :=
  r = .next t ∧ t.pc = target ∧ SameRegsBut changed s t ∧ SameBytes s t ∧ t.flag = s.flag ∧ t.output = s.output ∧
    SameController s t

/-- A matched PUSH then POP of a register, R7 too, restores the stack pointer and the register (R83's last corner case). -/
def PopUndoesPush : Prop :=
  ∀ (i : RegIndex) (s : State), Readable s i → s.pc.toNat + 4 ≤ 255 →
    ∃ t u : State, exec (.push (regByte i)) s = .next t ∧ exec (.pop (regByte i)) t = .next u ∧
      (∀ k : RegIndex, u.reg k = s.reg k) ∧ u.pc.toNat = s.pc.toNat + 4

/-- The values R34 gives for the state after Reset. R0 to R6 are unwritten: no value of theirs, of `ir` or of the fault
record is stated. -/
def HasResetValues (t : State) : Prop :=
  (∀ i : RegIndex, t.isWritten i = true ↔ i = 7) ∧ t.reg 7 = 0xF4 ∧ t.pc = 0 ∧ t.flag = .unset ∧ t.status = .idle ∧
    t.output = [] ∧ ∀ a : Byte, t.readByte a = none

end Sys2Proof.Claims

section

open Sys2Proof Sys2Proof.Machine Sys2Proof.Claims

/-! ### The ALU family -/

/-- R96. -/
def Obligations.AddWritesSumModulo256 : Prop := AluTwoRule .add 0xA0 fun x y => (x + y) % 256

/-- R97. -/
def Obligations.SubWritesDifferenceModulo256 : Prop := AluTwoRule .sub 0xA1 fun x y => (x + 256 - y) % 256

/-- R98. -/
def Obligations.MulWritesLowByteOfProduct : Prop := AluTwoRule .mul 0xA2 fun x y => (x * y) % 256

/-- R99: C8 comes before C10, and a fault writes nothing. -/
def Obligations.DivWritesQuotientOrFaults : Prop :=
  (∀ a b : Byte, encode (.div a b) = [0xA3, a, b]) ∧
  (∀ (i j : RegIndex) (s : State), Readable s i → Readable s j → s.reg j ≠ 0 → s.pc.toNat + 3 ≤ 255 →
    WritesInPlace (exec (.div (regByte i) (regByte j)) s) s i ((s.reg i).toNat / (s.reg j).toNat) 3) ∧
  FaultsOnTwo .div ∧
  (∀ (i j : RegIndex) (s : State), Readable s i → Readable s j → s.reg j = 0 →
    TakesFault (exec (.div (regByte i) (regByte j)) s) s .divZero (.number j.val)) ∧
  (∀ (i j : RegIndex) (s : State), Readable s i → Readable s j → s.reg j ≠ 0 → 255 < s.pc.toNat + 3 →
    TakesFault (exec (.div (regByte i) (regByte j)) s) s .address (.number 256))

/-- R100. -/
def Obligations.AndWritesBitwiseAnd : Prop := AluTwoRule .and 0xA8 fun x y => x &&& y

/-- R101. -/
def Obligations.OrWritesBitwiseOr : Prop := AluTwoRule .or 0xAA fun x y => x ||| y

/-- R102. -/
def Obligations.XorWritesBitwiseXor : Prop := AluTwoRule .xor 0xAB fun x y => x ^^^ y

/-- R103, under the default NOT_OPCODE for the encoding clause. -/
def Obligations.NotWritesComplement : Prop :=
  (∀ a : Byte, encode (.not a) = [0x69, a]) ∧
  (∀ n : NotOpcode, decodeOpcode n 0x69 = match n with | .x69 => some .not | .absent => none) ∧
  (∀ (i : RegIndex) (s : State), Readable s i → s.pc.toNat + 2 ≤ 255 →
    WritesInPlace (exec (.not (regByte i)) s) s i (255 - (s.reg i).toNat) 2) ∧
  FaultsOnIndex .not ∧ FaultsOnUnwritten .not ∧ FaultsPastTop .not 2

/-- R104: the whole 8-bit amount is used, and the result keeps the low 8 bits. -/
def Obligations.ShlWritesShiftedLeft : Prop := AluTwoRule .shl 0xAC fun x y => (x * 2 ^ y) % 256

/-- R105: the whole 8-bit amount is used. -/
def Obligations.ShrWritesShiftedRight : Prop := AluTwoRule .shr 0xAD fun x y => x / 2 ^ y

/-- R93: the ALU's table, on exact integers; none is DivByZero. -/
def Obligations.AluFollowsItsTable : Prop :=
  ∀ a b : Byte,
    (alu .add a b).map BitVec.toNat = some ((a.toNat + b.toNat) % 256) ∧
    (alu .sub a b).map BitVec.toNat = some ((a.toNat + 256 - b.toNat) % 256) ∧
    (alu .mul a b).map BitVec.toNat = some ((a.toNat * b.toNat) % 256) ∧
    (alu .div a b).map BitVec.toNat = (if b.toNat = 0 then none else some (a.toNat / b.toNat)) ∧
    (alu .and a b).map BitVec.toNat = some (a.toNat &&& b.toNat) ∧
    (alu .or a b).map BitVec.toNat = some (a.toNat ||| b.toNat) ∧
    (alu .xor a b).map BitVec.toNat = some (a.toNat ^^^ b.toNat) ∧
    (alu .not a b).map BitVec.toNat = some (255 - a.toNat) ∧
    (alu .shl a b).map BitVec.toNat = some ((a.toNat * 2 ^ b.toNat) % 256) ∧
    (alu .shr a b).map BitVec.toNat = some (a.toNat / 2 ^ b.toNat) ∧
    (8 ≤ b.toNat → alu .shl a b = some 0 ∧ alu .shr a b = some 0)

/-- An inference the spec marks as its own (43_alu.md R95, "[derived: from rule R93]"; 90_conflicts.md C14): ADD then
SUB of another register gives the first register its value back, and the pc is 6 further on. -/
def Obligations.AddThenSubRestores : Prop :=
  ∀ (i j : RegIndex) (s : State), i ≠ j → Readable s i → Readable s j → s.pc.toNat + 6 ≤ 255 →
    ∃ t u : State, exec (.add (regByte i) (regByte j)) s = .next t ∧
      exec (.sub (regByte i) (regByte j)) t = .next u ∧ (∀ k : RegIndex, u.reg k = s.reg k) ∧
      u.pc.toNat = s.pc.toNat + 6

/-! ### Registers and the stack -/

/-- R80. -/
def Obligations.LoadImmediateStoresImmediate : Prop :=
  (∀ a imm : Byte, encode (.loadImmediate a imm) = [0x82, a, imm]) ∧
  (∀ (i : RegIndex) (imm : Byte) (s : State), s.pc.toNat + 3 ≤ 255 →
    WritesInPlace (exec (.loadImmediate (regByte i) imm) s) s i imm.toNat 3) ∧
  (∀ (a imm : Byte) (s : State), 8 ≤ a.toNat →
    TakesFault (exec (.loadImmediate a imm) s) s .regIndex (.number a.toNat)) ∧
  (∀ (i : RegIndex) (imm : Byte) (s : State), 255 < s.pc.toNat + 3 →
    TakesFault (exec (.loadImmediate (regByte i) imm) s) s .address (.number 256))

/-- R81. -/
def Obligations.PrintRegEmitsRegister : Prop :=
  (∀ a : Byte, encode (.printReg a) = [0x47, a]) ∧
  (∀ (i : RegIndex) (s : State), Readable s i → s.pc.toNat + 2 ≤ 255 →
    ∃ t : State, exec (.printReg (regByte i)) s = .next t ∧ t.output = s.output ++ [s.reg i] ∧
      t.pc.toNat = s.pc.toNat + 2 ∧ SameRegsBut [] s t ∧ SameBytes s t ∧ t.flag = s.flag ∧ SameController s t) ∧
  FaultsOnIndex .printReg ∧ FaultsOnUnwritten .printReg ∧ FaultsPastTop .printReg 2

/-- R82: the address stored to is `s.pushAddr`, the decremented stack pointer; PUSH r7 stores that address. -/
def Obligations.PushStoresBelowStackPointer : Prop :=
  (∀ a : Byte, encode (.push a) = [0x45, a]) ∧
  (∀ (i : RegIndex) (s : State), Readable s i → s.pc.toNat + 2 ≤ 255 →
    ∃ t : State, exec (.push (regByte i)) s = .next t ∧
      s.pushAddr.toNat = ((s.reg 7).toNat + 255) % 256 ∧
      t.readByte s.pushAddr = some (if i = 7 then s.pushAddr else s.reg i) ∧
      t.reg 7 = s.pushAddr ∧ t.pc.toNat = s.pc.toNat + 2 ∧
      SameRegsBut [7] s t ∧ SameBytesBut s.pushAddr s t ∧ t.flag = s.flag ∧ t.output = s.output ∧
      SameController s t) ∧
  FaultsOnIndex .push ∧ FaultsOnUnwritten .push ∧ FaultsPastTop .push 2

/-- R83: POP r7 leaves the popped byte plus 1; the popped cell keeps its value; a matched PUSH then POP restores. -/
def Obligations.PopLoadsFromStackPointer : Prop :=
  (∀ a : Byte, encode (.pop a) = [0x46, a]) ∧
  (∀ (i : RegIndex) (v : Byte) (s : State), s.loadByte (s.reg 7) = some v → s.pc.toNat + 2 ≤ 255 →
    ∃ t : State, exec (.pop (regByte i)) s = .next t ∧
      (i ≠ 7 → t.reg i = v ∧ t.isWritten i = true ∧ (t.reg 7).toNat = ((s.reg 7).toNat + 1) % 256) ∧
      (i = 7 → (t.reg 7).toNat = (v.toNat + 1) % 256) ∧
      t.pc.toNat = s.pc.toNat + 2 ∧ SameRegsBut [i, 7] s t ∧ SameBytes s t ∧ t.flag = s.flag ∧
      t.output = s.output ∧ SameController s t) ∧
  FaultsOnIndex .pop ∧
  (∀ (i : RegIndex) (s : State), s.loadByte (s.reg 7) = none →
    TakesFault (exec (.pop (regByte i)) s) s .uninit (.mem (s.reg 7))) ∧
  (∀ (i : RegIndex) (v : Byte) (s : State), s.loadByte (s.reg 7) = some v → 255 < s.pc.toNat + 2 →
    TakesFault (exec (.pop (regByte i)) s) s .address (.number 256)) ∧
  PopUndoesPush

/-! ### Control transfer and HALT -/

/-- R87: the return address is stored at `s.pushAddr`; CALL r7 goes to the decremented stack pointer. -/
def Obligations.CallPushesReturnAddress : Prop :=
  (∀ a : Byte, encode (.call a) = [0x50, a]) ∧
  (∀ (i : RegIndex) (s : State), Readable s i → s.pc.toNat + 2 ≤ 255 →
    ∃ t : State, exec (.call (regByte i)) s = .next t ∧
      s.pushAddr.toNat = ((s.reg 7).toNat + 255) % 256 ∧
      (t.readByte s.pushAddr).map BitVec.toNat = some (s.pc.toNat + 2) ∧
      t.reg 7 = s.pushAddr ∧ t.pc = (if i = 7 then s.pushAddr else s.reg i) ∧
      SameRegsBut [7] s t ∧ SameBytesBut s.pushAddr s t ∧ t.flag = s.flag ∧ t.output = s.output ∧
      SameController s t) ∧
  FaultsOnIndex .call ∧ FaultsOnUnwritten .call ∧ FaultsPastTop .call 2

/-- R88: legal at every pc. -/
def Obligations.ReturnPopsProgramCounter : Prop :=
  encode .ret = [0x11] ∧
  (∀ (v : Byte) (s : State), s.loadByte (s.reg 7) = some v →
    ∃ t : State, GoesTo (exec .ret s) s v [7] t ∧ (t.reg 7).toNat = ((s.reg 7).toNat + 1) % 256) ∧
  (∀ s : State, s.loadByte (s.reg 7) = none → TakesFault (exec .ret s) s .uninit (.mem (s.reg 7)))

/-- R86: after a CALL, a RETURN reached with the stack pointer and the return address as CALL left them resumes at the
byte after CALL's operand, and the stack pointer is as before the CALL. -/
def Obligations.CallThenReturnResumes : Prop :=
  ∀ (i : RegIndex) (s t w : State), exec (.call (regByte i)) s = .next t → t.status ≠ .faulted →
    w.reg 7 = t.reg 7 → w.readByte (t.reg 7) = t.readByte (t.reg 7) →
    ∃ u : State, exec .ret w = .next u ∧ u.pc.toNat = s.pc.toNat + 2 ∧ u.reg 7 = s.reg 7

/-- R89. -/
def Obligations.CompareSetsFlag : Prop :=
  (∀ a b : Byte, encode (.compare a b) = [0xA7, a, b]) ∧
  (∀ (i j : RegIndex) (s : State), Readable s i → Readable s j → s.pc.toNat + 3 ≤ 255 →
    ∃ t : State, exec (.compare (regByte i) (regByte j)) s = .next t ∧
      (t.flag = .less ↔ (s.reg i).toNat < (s.reg j).toNat) ∧
      (t.flag = .greater ↔ (s.reg j).toNat < (s.reg i).toNat) ∧
      (t.flag = .equal ↔ s.reg i = s.reg j) ∧
      t.pc.toNat = s.pc.toNat + 3 ∧ SameRegsBut [] s t ∧ SameBytes s t ∧ t.output = s.output ∧
      SameController s t) ∧
  FaultsOnTwo .compare ∧
  (∀ (i j : RegIndex) (s : State), Readable s i → Readable s j → 255 < s.pc.toNat + 3 →
    TakesFault (exec (.compare (regByte i) (regByte j)) s) s .address (.number 256))

/-- R90: taken at every pc; the register is checked whether or not the jump is taken. -/
def Obligations.JumpIfEqualBranches : Prop :=
  (∀ a : Byte, encode (.jumpIfEqual a) = [0x55, a]) ∧
  (∀ (i : RegIndex) (s : State), Readable s i → s.flag = .equal →
    ∃ t : State, GoesTo (exec (.jumpIfEqual (regByte i)) s) s (s.reg i) [] t) ∧
  (∀ (i : RegIndex) (s : State), Readable s i → (s.flag = .greater ∨ s.flag = .less) → s.pc.toNat + 2 ≤ 255 →
    ∃ t : State, GoesTo (exec (.jumpIfEqual (regByte i)) s) s (BitVec.ofNat 8 (s.pc.toNat + 2)) [] t) ∧
  FaultsOnIndex .jumpIfEqual ∧ FaultsOnUnwritten .jumpIfEqual ∧
  (∀ (i : RegIndex) (s : State), Readable s i → s.flag = .unset →
    TakesFault (exec (.jumpIfEqual (regByte i)) s) s .uninit .flag) ∧
  (∀ (i : RegIndex) (s : State), Readable s i → (s.flag = .greater ∨ s.flag = .less) → 255 < s.pc.toNat + 2 →
    TakesFault (exec (.jumpIfEqual (regByte i)) s) s .address (.number 256))

/-- R91: UNSET is not "not equal"; it faults. -/
def Obligations.JumpIfNotEqualBranches : Prop :=
  (∀ a : Byte, encode (.jumpIfNotEqual a) = [0x56, a]) ∧
  (∀ (i : RegIndex) (s : State), Readable s i → (s.flag = .greater ∨ s.flag = .less) →
    ∃ t : State, GoesTo (exec (.jumpIfNotEqual (regByte i)) s) s (s.reg i) [] t) ∧
  (∀ (i : RegIndex) (s : State), Readable s i → s.flag = .equal → s.pc.toNat + 2 ≤ 255 →
    ∃ t : State, GoesTo (exec (.jumpIfNotEqual (regByte i)) s) s (BitVec.ofNat 8 (s.pc.toNat + 2)) [] t) ∧
  FaultsOnIndex .jumpIfNotEqual ∧ FaultsOnUnwritten .jumpIfNotEqual ∧
  (∀ (i : RegIndex) (s : State), Readable s i → s.flag = .unset →
    TakesFault (exec (.jumpIfNotEqual (regByte i)) s) s .uninit .flag) ∧
  (∀ (i : RegIndex) (s : State), Readable s i → s.flag = .equal → 255 < s.pc.toNat + 2 →
    TakesFault (exec (.jumpIfNotEqual (regByte i)) s) s .address (.number 256))

/-- R92: legal at every pc, and the flag is not looked at. -/
def Obligations.JumpGoesToRegister : Prop :=
  (∀ a : Byte, encode (.jump a) = [0x54, a]) ∧
  (∀ (i : RegIndex) (s : State), Readable s i →
    ∃ t : State, GoesTo (exec (.jump (regByte i)) s) s (s.reg i) [] t) ∧
  FaultsOnIndex .jump ∧ FaultsOnUnwritten .jump

/-- R79: at every pc; only the status changes. A Step whose opcode byte is HALT's halts at it, and no Step after that has an
effect; C1 is the one check that can fail. -/
def Obligations.HaltStopsInPlace : Prop :=
  encode .halt = [0x01] ∧
  (∀ s : State, ∃ t : State, exec .halt s = .next t ∧ t.status = .halted ∧ t.pc = s.pc ∧ SameRegsBut [] s t ∧
    SameBytes s t ∧ t.flag = s.flag ∧ t.output = s.output ∧ t.faultRecord = s.faultRecord ∧ t.ir = s.ir ∧
    t.params = s.params) ∧
  (∀ s : State, s.status = .running → s.loadByte s.pc = some 0x01 →
    step s = .next { s with ir := 0x01, status := .halted } ∧
    ∀ k : Nat, Host.Core.run core k { s with ir := 0x01, status := .halted } =
      .next { s with ir := 0x01, status := .halted }) ∧
  (∀ s : State, s.status = .running → s.loadByte s.pc = none → TakesFault (step s) s .uninit (.mem s.pc))

/-! ### Encoding -/

/-- R52 to R54, R57: every instruction that has an encoding, with every operand byte, followed by any bytes, decodes to
itself, and the bytes after it are left. -/
def Obligations.DecodeOfEncode : Prop :=
  ∀ (n : NotOpcode) (i : Instr) (rest : List Byte), (n = .x69 ∨ ∀ a : Byte, i ≠ .not a) →
    decode n (encode i ++ rest) = .ok i rest

/-- R61 to R63: whatever decodes is the encoding of the instruction it decodes to, and an instruction that has none
under this NOT_OPCODE is never the answer; so no byte sequence has two readings. -/
def Obligations.EncodeOfDecode : Prop :=
  ∀ (n : NotOpcode) (i : Instr) (bytes rest : List Byte), decode n bytes = .ok i rest →
    bytes = encode i ++ rest ∧ (n = .x69 ∨ ∀ a : Byte, i ≠ .not a)

/-- R57: a word of each format, written out from the tables of R54 and R57. -/
def Obligations.TableWordsDecode : Prop :=
  decodeTableWord 8 0b00010001 = some .ret ∧
  decodeTableWord 16 0b0000011101000101 = some (.push 7) ∧
  decodeTableWord 24 0b111111110000001110000010 = some (.loadImmediate 3 255) ∧
  decodeTableWord 24 0b000000100000000110101011 = some (.xor 1 2)

/-- An inference the spec marks as its own (30_encoding.md R58, "[derived: from rule R57]"): bits 7:6 are the operand
count; bit 5 marks the ALU instructions and COMPARE; bit 4 marks the instructions that set the pc themselves. -/
def Obligations.OpcodeBitsFollowLayout : Prop :=
  ∀ o : Op, o.opcode.toNat / 64 = o.format.operands ∧
    (o.opcode.getLsbD 5 = true ↔ o ∈ [Op.add, .sub, .mul, .div, .and, .or, .xor, .not, .shl, .shr, .compare]) ∧
    (o.opcode.getLsbD 4 = true ↔ o ∈ [Op.call, .ret, .jump, .jumpIfEqual, .jumpIfNotEqual])

/-- R61: 235 bytes are unknown, 236 under NOT_OPCODE = `none`; fetching one raises DECODE under the default policy. -/
def Obligations.UnknownOpcodesRaiseDecode : Prop :=
  ((List.range 256).filter fun b => (decodeOpcode .x69 (BitVec.ofNat 8 b)).isNone).length = 235 ∧
  ((List.range 256).filter fun b => (decodeOpcode .absent (BitVec.ofNat 8 b)).isNone).length = 236 ∧
  (∀ (s : State) (b : Byte), s.status = .running → s.loadByte s.pc = some b → decodeOpcode s.params.notOpcode b = none →
    s.params.unknownOpcode = .fault → TakesFault (step s) { s with ir := b } .decode (.number b.toNat)) ∧
  (∀ (s : State) (b : Byte), s.status = .running → s.loadByte s.pc = some b → decodeOpcode s.params.notOpcode b = none →
    s.params.unknownOpcode = .stall → step s = .next { s with ir := b })

/-! ### The Step -/

/-- R67, R68: where the bytes at the pc decode to an instruction, the Step is `exec` of it on the state with `ir` loaded. -/
def Obligations.StepRunsDecodedInstruction : Prop :=
  ∀ (s : State) (i : Instr) (op : Byte) (operands : List Byte), s.status = .running →
    decode s.params.notOpcode (op :: operands) = .ok i [] → s.pc.toNat + operands.length ≤ 255 →
    (∀ (k : Nat) (h : k < (op :: operands).length),
      s.loadByte (BitVec.ofNat 8 (s.pc.toNat + k)) = some (op :: operands)[k]) →
    step s = exec i { s with ir := op }

/-- R77. -/
def Obligations.StepOutsideRunningDoesNothing : Prop :=
  ∀ s : State, s.status ≠ .running → step s = .next s

/-- R67, R106: every Step answers a next state: no instruction, byte or state stops the model. -/
def Obligations.EveryStepAnswers : Prop := ∀ s : State, ∃ t : State, step s = .next t

/-- R70 (C5 to C10), R114: an instruction takes the fault of its first failing check, and completes where none fails. -/
def Obligations.ExecTakesFirstFailingCheck : Prop :=
  ∀ (i : Instr) (s : State),
    (∀ (c : Cause) (f : FaultInfo), execFault i s = some (c, f) → TakesFault (exec i s) s c f) ∧
    (execFault i s = none → s.status = .running → ∃ t : State, exec i s = .next t ∧ t.status ≠ .faulted)

/-- R70 (C1 to C10): a Step takes the fault of the first failing check, with `ir` as the fetch left it, and faults on no
other ground. -/
def Obligations.StepTakesFirstFailingCheck : Prop :=
  ∀ s : State, s.status = .running → s.params.unknownOpcode = .fault →
    (∀ (c : Cause) (f : FaultInfo), stepFault s = some (c, f) →
      TakesFault (step s) { s with ir := (s.loadByte s.pc).getD s.ir } c f) ∧
    (stepFault s = none → ∃ t : State, step s = .next t ∧ t.status ≠ .faulted)

/-- R71: a Step that faults changes only the status, the fault record and `ir`, and records its own pc. -/
def Obligations.FaultsArePrecise : Prop :=
  ∀ s t : State, s.status = .running → step s = .next t → t.status = .faulted →
    t = { s with ir := t.ir, status := .faulted, faultRecord := t.faultRecord } ∧ t.faultRecord.pc = s.pc

/-- R78: under STALL an unknown opcode leaves everything but `ir` unchanged, at the first Step and for ever; under the
default it faults. -/
def Obligations.UnknownOpcodeStallsForever : Prop :=
  ∀ (s : State) (b : Byte), s.status = .running → s.loadByte s.pc = some b → decodeOpcode s.params.notOpcode b = none →
    match s.params.unknownOpcode with
    | .stall => ∀ k : Nat, Host.Core.run core (k + 1) s = .next { s with ir := b }
    | .fault => TakesFault (step s) { s with ir := b } .decode (.number b.toNat)

/-- R48: the byte a PUSH has stored is the byte the next Step fetches, where the pc is at its address. -/
def Obligations.NextFetchSeesPushedByte : Prop :=
  ∀ (i : RegIndex) (s t u : State), s.status = .running → exec (.push (regByte i)) s = .next t → t.status = .running →
    t.pc = s.pushAddr → step t = .next u → u.ir = if i = 7 then s.pushAddr else s.reg i

/-- R112: under UNINIT_POLICY = ZERO no unwritten register or cell faults; only an UNSET flag raises UNINIT. -/
def Obligations.ZeroPolicyFaultsOnlyOnFlag : Prop :=
  ∀ s t : State, s.status = .running → s.params.uninit = .zero → step s = .next t → t.status = .faulted →
    t.faultRecord.cause = .uninit → t.faultRecord.info = .flag ∧ s.flag = .unset

/-! ### Whole-machine rules -/

/-- The table of R19, which the spec marks as its own inference ("[derived: from ...]"): the registers an instruction
writes are those of the table. -/
def Obligations.OnlyTabledRegistersAreWritten : Prop :=
  ∀ (i : Instr) (s t : State), exec i s = .next t → SameRegsBut (regsWritten i) s t

/-- The table of R19, which the spec marks as its own inference ("[derived: from ...]"): an instruction depends on no
register outside the table's "read" column: with another value in such a register, it has the same effect on everything
else. -/
def Obligations.OnlyTabledRegistersAreRead : Prop :=
  ∀ (i : Instr) (s : State) (k : RegIndex) (v : Byte), k ∉ regsRead i →
    ∃ t u : State, exec i s = .next t ∧ exec i (s.setReg k v) = .next u ∧ SameRegsBut [k] t u ∧ u.pc = t.pc ∧
      SameBytes t u ∧ u.flag = t.flag ∧ u.output = t.output ∧ SameController t u

/-- R23: only COMPARE writes the flag, which is never UNSET again, and only the conditional jumps read it. -/
def Obligations.FlagWritersAndReaders : Prop :=
  (∀ s t : State, step s = .next t → t.flag ≠ s.flag → s.loadByte s.pc = some 0xA7 ∧ t.flag ≠ .unset) ∧
  (∀ (i : Instr) (s : State) (f : Flag), isConditionalJump i = false →
    ∃ t u : State, exec i s = .next t ∧ exec i { s with flag := f } = .next u ∧ { u with flag := t.flag } = t)

/-- R32: the output history is empty at reset, grows only by PRINT_REG's one byte, and is never read. -/
def Obligations.OutputGrowsOnlyByPrintReg : Prop :=
  State.reset.output = [] ∧
  ∀ s t : State, step s = .next t →
    ∃ ev : List Byte, t.output = s.output ++ ev ∧
      (ev = [] ∨ s.loadByte s.pc = some 0x47 ∧ ∃ i : RegIndex, ev = [s.reg i]) ∧
      ∀ o : List Byte, step { s with output := o } = .next { t with output := o ++ ev }

/-- R36, R38: only PUSH and CALL write memory, at the decremented stack pointer, and no cell becomes unwritten. -/
def Obligations.OnlyPushAndCallWriteMemory : Prop :=
  ∀ (s t : State) (a : Byte), step s = .next t → t.readByte a ≠ s.readByte a →
    (s.loadByte s.pc = some 0x45 ∨ s.loadByte s.pc = some 0x50) ∧ a.toNat = ((s.reg 7).toNat + 255) % 256 ∧
      t.readByte a ≠ none

/-- R30: the status changes as the rule lists, under every move of the host; a Step halts exactly at a HALT. -/
def Obligations.StatusTransitions : Prop :=
  (∀ s : State, ∃ t : State, act .reset s = .next t ∧ t.status = .idle) ∧
  (∀ s : State, ∃ t : State, act .start s = .next t ∧ (s.status = .idle → t.status = .running) ∧
    (s.status ≠ .idle → t.status = s.status)) ∧
  (∀ (image : List Byte) (s t : State), act (.load image) s = .next t → t.status = s.status) ∧
  (∀ s : State, s.status ≠ .running → ∃ t : State, act .step s = .next t ∧ t.status = s.status) ∧
  (∀ s t : State, s.status = .running → act .step s = .next t →
    t.status ≠ .idle ∧ (t.status = .halted ↔ s.loadByte s.pc = some 0x01) ∧
    (s.params.unknownOpcode = .fault → (t.status = .faulted ↔ stepFault s ≠ none)))

/-- R5's parameters, a field of State by the model's choice (log entry 4): the defaults in the reset state, changed by no move of
the host and no Step. -/
def Obligations.ParametersAreFixed : Prop :=
  State.reset.params = Params.standard ∧ ∀ (m : HostAction) (s t : State), act m s = .next t → t.params = s.params

/-- R116, R123: a HALTED or FAULTED machine stays as it is under any number of Steps and under Start; that a
load of it is refused is the model's reading (log entry 7). -/
def Obligations.StoppedMachineStays : Prop :=
  ∀ s : State, s.status = .halted ∨ s.status = .faulted →
    (∀ k : Nat, Host.Core.run core k s = .next s) ∧ act .start s = .next s ∧
      ∀ image : List Byte, act (.load image) s = .refused .loadOutsideIdle

/-- The invariant holds after every move of the host that answers a next state, a Step among them, from every state in
which it holds. -/
def Obligations.InvariantIsKept : Prop :=
  ∀ (m : HostAction) (s t : State), Inv s → act m s = .next t → Inv t

/-- The invariant holds right after reset. -/
def Obligations.InvariantAtReset : Prop := ∀ p : Params, Inv (State.resetWith p)

/-! ### Reset, loading, starting -/

/-- R34, R124: what Reset leaves, in any status. The values the model chooses (log entries 1 to 3) are not stated. -/
def Obligations.ResetLeavesResetState : Prop :=
  HasResetValues State.reset ∧ ∀ s : State, ∃ t : State, act .reset s = .next t ∧ HasResetValues t

/-- R125: loading in IDLE places the image from address 0 and changes nothing else; with nothing loaded, the first Step faults at
address 0. -/
def Obligations.LoadPlacesImage : Prop :=
  (∀ (image : List Byte) (s : State), s.status = .idle → image.length ≤ 256 →
    ∃ t : State, act (.load image) s = .next t ∧
      (∀ (k : Nat) (h : k < image.length), t.readByte (BitVec.ofNat 8 k) = some image[k]) ∧
      (∀ a : Byte, image.length ≤ a.toNat → t.readByte a = s.readByte a) ∧ t = { s with mem := t.mem }) ∧
  TakesFault (step State.reset.applyStart) State.reset.applyStart .uninit (.mem 0)

/-- The loads that 93_implementation_defined.md U17 and U18 say no model has are refused by name (log entry 7). -/
def Obligations.ExcludedLoadsAreRefused : Prop :=
  (∀ (image : List Byte) (s : State), s.status ≠ .idle → act (.load image) s = .refused .loadOutsideIdle) ∧
  (∀ (image : List Byte) (s : State), s.status = .idle → 256 < image.length →
    act (.load image) s = .refused .imageTooLong)

/-- R126: Start moves IDLE to RUNNING and nothing else; the first Step after Reset and Start fetches at address 0. -/
def Obligations.StartRunsIdleMachine : Prop :=
  (∀ s : State, s.status = .idle → act .start s = .next { s with status := .running }) ∧
  (∀ s : State, s.status ≠ .idle → act .start s = .next s) ∧
  (∀ p : Params, (State.resetWith p).applyStart.pc = 0 ∧ (State.resetWith p).applyStart.status = .running)

/-- R107: the codes of the causes. -/
def Obligations.CauseCodes : Prop :=
  Cause.decode.code = 1 ∧ Cause.divZero.code = 2 ∧ Cause.regIndex.code = 3 ∧ Cause.address.code = 4 ∧
    Cause.uninit.code = 5

/-! ### The Step under STALL -/

/-- R70 under UNKNOWN_OPCODE_POLICY = STALL, which R78 lets change check C2 alone: every other failing check raises its fault as under
the default, and a Step on which no other check fails is not FAULTED. -/
def Obligations.StallKeepsEveryOtherCheck : Prop :=
  ∀ s : State, s.status = .running → s.params.unknownOpcode = .stall →
    (∀ (c : Cause) (f : FaultInfo), stepFault s = some (c, f) → c ≠ .decode →
      TakesFault (step s) { s with ir := (s.loadByte s.pc).getD s.ir } c f) ∧
    ((∀ (c : Cause) (f : FaultInfo), stepFault s = some (c, f) → c = .decode) →
      ∃ t : State, step s = .next t ∧ t.status ≠ .faulted)

end
end

