-- ==== Sys2Proof/Laws/Decode.lean ====
section
/-! SUPPORT. The decoder on opcode bytes: it finds each row by its opcode, and only rows that have an encoding. -/

namespace Sys2Proof

/-- The rows' opcodes are distinct (R63): no byte matches two rows. -/
theorem Op.opcode_injective : ∀ o p : Op, o.opcode = p.opcode → o = p := by
  intro o p; cases o <;> cases p <;> simp [Op.opcode]

theorem Op.mem_all (o : Op) : o ∈ Op.all := by cases o <;> simp [Op.all]

theorem mem_opcodeRows {n : NotOpcode} {o : Op} : o ∈ opcodeRows n ↔ n = .x69 ∨ o ≠ .not := by
  cases n <;> simp [opcodeRows, Op.mem_all]

/-- All the decoder can answer on a byte. -/
theorem decodeOpcode_eq_some {n : NotOpcode} {b : Byte} {o : Op} :
    decodeOpcode n b = some o ↔ o.opcode = b ∧ (n = .x69 ∨ o ≠ .not) := by
  constructor
  · intro h
    exact ⟨by simpa using List.find?_some h, mem_opcodeRows.1 (List.mem_of_find?_eq_some h)⟩
  · rintro ⟨rfl, hn⟩
    cases n
    · cases o <;> rfl
    · cases o <;> first | rfl | simp at hn

theorem decodeOpcode_eq_none {n : NotOpcode} {b : Byte} :
    decodeOpcode n b = none ↔ ∀ o : Op, (n = .x69 ∨ o ≠ .not) → o.opcode ≠ b := by
  cases h : decodeOpcode n b with
  | none => simp only [true_iff]; exact fun o ho hb => by simp [decodeOpcode_eq_some.2 ⟨hb, ho⟩] at h
  | some o =>
    simp only [reduceCtorEq, false_iff, not_forall]
    exact ⟨o, (decodeOpcode_eq_some.1 h).2, not_not.2 (decodeOpcode_eq_some.1 h).1⟩

end Sys2Proof
end

