-- ==== Sys2Proof/Laws/State.lean ====
section
/-! SUPPORT. One lemma per field per update of State, each true by rfl, and what the accessors of registers and memory give after
an update that does not concern them, so that no proof unfolds a record update. -/

namespace Sys2Proof.Machine

/-! ### State.setReg -/

@[simp] theorem State.setReg_params (s : State) (i : RegIndex) (v : Byte) : (s.setReg i v).params = s.params := rfl
@[simp] theorem State.setReg_regs (s : State) (i : RegIndex) (v : Byte) : (s.setReg i v).regs = s.regs.set i.val v := rfl
@[simp] theorem State.setReg_written (s : State) (i : RegIndex) (v : Byte) : (s.setReg i v).written = if h : i.val < 7 then s.written.set i.val true else s.written := rfl
@[simp] theorem State.setReg_pc (s : State) (i : RegIndex) (v : Byte) : (s.setReg i v).pc = s.pc := rfl
@[simp] theorem State.setReg_flag (s : State) (i : RegIndex) (v : Byte) : (s.setReg i v).flag = s.flag := rfl
@[simp] theorem State.setReg_ir (s : State) (i : RegIndex) (v : Byte) : (s.setReg i v).ir = s.ir := rfl
@[simp] theorem State.setReg_status (s : State) (i : RegIndex) (v : Byte) : (s.setReg i v).status = s.status := rfl
@[simp] theorem State.setReg_faultRecord (s : State) (i : RegIndex) (v : Byte) : (s.setReg i v).faultRecord = s.faultRecord := rfl
@[simp] theorem State.setReg_output (s : State) (i : RegIndex) (v : Byte) : (s.setReg i v).output = s.output := rfl
@[simp] theorem State.setReg_mem (s : State) (i : RegIndex) (v : Byte) : (s.setReg i v).mem = s.mem := rfl
@[simp] theorem State.setReg_readByte (s : State) (i : RegIndex) (v : Byte) (addr : Byte) : (s.setReg i v).readByte addr = s.readByte addr := rfl
@[simp] theorem State.setReg_loadByte (s : State) (i : RegIndex) (v : Byte) (addr : Byte) : (s.setReg i v).loadByte addr = s.loadByte addr := rfl

/-! ### State.setPc -/

@[simp] theorem State.setPc_params (s : State) (t : Byte) : (s.setPc t).params = s.params := rfl
@[simp] theorem State.setPc_regs (s : State) (t : Byte) : (s.setPc t).regs = s.regs := rfl
@[simp] theorem State.setPc_written (s : State) (t : Byte) : (s.setPc t).written = s.written := rfl
@[simp] theorem State.setPc_pc (s : State) (t : Byte) : (s.setPc t).pc = t := rfl
@[simp] theorem State.setPc_flag (s : State) (t : Byte) : (s.setPc t).flag = s.flag := rfl
@[simp] theorem State.setPc_ir (s : State) (t : Byte) : (s.setPc t).ir = s.ir := rfl
@[simp] theorem State.setPc_status (s : State) (t : Byte) : (s.setPc t).status = s.status := rfl
@[simp] theorem State.setPc_faultRecord (s : State) (t : Byte) : (s.setPc t).faultRecord = s.faultRecord := rfl
@[simp] theorem State.setPc_output (s : State) (t : Byte) : (s.setPc t).output = s.output := rfl
@[simp] theorem State.setPc_mem (s : State) (t : Byte) : (s.setPc t).mem = s.mem := rfl
@[simp] theorem State.setPc_readByte (s : State) (t : Byte) (addr : Byte) : (s.setPc t).readByte addr = s.readByte addr := rfl
@[simp] theorem State.setPc_loadByte (s : State) (t : Byte) (addr : Byte) : (s.setPc t).loadByte addr = s.loadByte addr := rfl
@[simp] theorem State.setPc_isWritten (s : State) (t : Byte) (k : RegIndex) : (s.setPc t).isWritten k = s.isWritten k := rfl
@[simp] theorem State.setPc_reg (s : State) (t : Byte) (k : RegIndex) : (s.setPc t).reg k = s.reg k := rfl
@[simp] theorem State.setPc_readReg (s : State) (t : Byte) (k : RegIndex) : (s.setPc t).readReg k = s.readReg k := rfl
@[simp] theorem State.setPc_sp (s : State) (t : Byte) : (s.setPc t).sp = s.sp := rfl
@[simp] theorem State.setPc_pushAddr (s : State) (t : Byte) : (s.setPc t).pushAddr = s.pushAddr := rfl
@[simp] theorem State.setPc_popSp (s : State) (t : Byte) : (s.setPc t).popSp = s.popSp := rfl

/-! ### State.setFlag -/

@[simp] theorem State.setFlag_params (s : State) (f : Flag) : (s.setFlag f).params = s.params := rfl
@[simp] theorem State.setFlag_regs (s : State) (f : Flag) : (s.setFlag f).regs = s.regs := rfl
@[simp] theorem State.setFlag_written (s : State) (f : Flag) : (s.setFlag f).written = s.written := rfl
@[simp] theorem State.setFlag_pc (s : State) (f : Flag) : (s.setFlag f).pc = s.pc := rfl
@[simp] theorem State.setFlag_flag (s : State) (f : Flag) : (s.setFlag f).flag = f := rfl
@[simp] theorem State.setFlag_ir (s : State) (f : Flag) : (s.setFlag f).ir = s.ir := rfl
@[simp] theorem State.setFlag_status (s : State) (f : Flag) : (s.setFlag f).status = s.status := rfl
@[simp] theorem State.setFlag_faultRecord (s : State) (f : Flag) : (s.setFlag f).faultRecord = s.faultRecord := rfl
@[simp] theorem State.setFlag_output (s : State) (f : Flag) : (s.setFlag f).output = s.output := rfl
@[simp] theorem State.setFlag_mem (s : State) (f : Flag) : (s.setFlag f).mem = s.mem := rfl
@[simp] theorem State.setFlag_readByte (s : State) (f : Flag) (addr : Byte) : (s.setFlag f).readByte addr = s.readByte addr := rfl
@[simp] theorem State.setFlag_loadByte (s : State) (f : Flag) (addr : Byte) : (s.setFlag f).loadByte addr = s.loadByte addr := rfl
@[simp] theorem State.setFlag_isWritten (s : State) (f : Flag) (k : RegIndex) : (s.setFlag f).isWritten k = s.isWritten k := rfl
@[simp] theorem State.setFlag_reg (s : State) (f : Flag) (k : RegIndex) : (s.setFlag f).reg k = s.reg k := rfl
@[simp] theorem State.setFlag_readReg (s : State) (f : Flag) (k : RegIndex) : (s.setFlag f).readReg k = s.readReg k := rfl
@[simp] theorem State.setFlag_sp (s : State) (f : Flag) : (s.setFlag f).sp = s.sp := rfl
@[simp] theorem State.setFlag_pushAddr (s : State) (f : Flag) : (s.setFlag f).pushAddr = s.pushAddr := rfl
@[simp] theorem State.setFlag_popSp (s : State) (f : Flag) : (s.setFlag f).popSp = s.popSp := rfl

/-! ### State.setIr -/

@[simp] theorem State.setIr_params (s : State) (op : Byte) : (s.setIr op).params = s.params := rfl
@[simp] theorem State.setIr_regs (s : State) (op : Byte) : (s.setIr op).regs = s.regs := rfl
@[simp] theorem State.setIr_written (s : State) (op : Byte) : (s.setIr op).written = s.written := rfl
@[simp] theorem State.setIr_pc (s : State) (op : Byte) : (s.setIr op).pc = s.pc := rfl
@[simp] theorem State.setIr_flag (s : State) (op : Byte) : (s.setIr op).flag = s.flag := rfl
@[simp] theorem State.setIr_ir (s : State) (op : Byte) : (s.setIr op).ir = op := rfl
@[simp] theorem State.setIr_status (s : State) (op : Byte) : (s.setIr op).status = s.status := rfl
@[simp] theorem State.setIr_faultRecord (s : State) (op : Byte) : (s.setIr op).faultRecord = s.faultRecord := rfl
@[simp] theorem State.setIr_output (s : State) (op : Byte) : (s.setIr op).output = s.output := rfl
@[simp] theorem State.setIr_mem (s : State) (op : Byte) : (s.setIr op).mem = s.mem := rfl
@[simp] theorem State.setIr_readByte (s : State) (op : Byte) (addr : Byte) : (s.setIr op).readByte addr = s.readByte addr := rfl
@[simp] theorem State.setIr_loadByte (s : State) (op : Byte) (addr : Byte) : (s.setIr op).loadByte addr = s.loadByte addr := rfl
@[simp] theorem State.setIr_isWritten (s : State) (op : Byte) (k : RegIndex) : (s.setIr op).isWritten k = s.isWritten k := rfl
@[simp] theorem State.setIr_reg (s : State) (op : Byte) (k : RegIndex) : (s.setIr op).reg k = s.reg k := rfl
@[simp] theorem State.setIr_readReg (s : State) (op : Byte) (k : RegIndex) : (s.setIr op).readReg k = s.readReg k := rfl
@[simp] theorem State.setIr_sp (s : State) (op : Byte) : (s.setIr op).sp = s.sp := rfl
@[simp] theorem State.setIr_pushAddr (s : State) (op : Byte) : (s.setIr op).pushAddr = s.pushAddr := rfl
@[simp] theorem State.setIr_popSp (s : State) (op : Byte) : (s.setIr op).popSp = s.popSp := rfl

/-! ### State.setStatus -/

@[simp] theorem State.setStatus_params (s : State) (st : Status) : (s.setStatus st).params = s.params := rfl
@[simp] theorem State.setStatus_regs (s : State) (st : Status) : (s.setStatus st).regs = s.regs := rfl
@[simp] theorem State.setStatus_written (s : State) (st : Status) : (s.setStatus st).written = s.written := rfl
@[simp] theorem State.setStatus_pc (s : State) (st : Status) : (s.setStatus st).pc = s.pc := rfl
@[simp] theorem State.setStatus_flag (s : State) (st : Status) : (s.setStatus st).flag = s.flag := rfl
@[simp] theorem State.setStatus_ir (s : State) (st : Status) : (s.setStatus st).ir = s.ir := rfl
@[simp] theorem State.setStatus_status (s : State) (st : Status) : (s.setStatus st).status = st := rfl
@[simp] theorem State.setStatus_faultRecord (s : State) (st : Status) : (s.setStatus st).faultRecord = s.faultRecord := rfl
@[simp] theorem State.setStatus_output (s : State) (st : Status) : (s.setStatus st).output = s.output := rfl
@[simp] theorem State.setStatus_mem (s : State) (st : Status) : (s.setStatus st).mem = s.mem := rfl
@[simp] theorem State.setStatus_readByte (s : State) (st : Status) (addr : Byte) : (s.setStatus st).readByte addr = s.readByte addr := rfl
@[simp] theorem State.setStatus_loadByte (s : State) (st : Status) (addr : Byte) : (s.setStatus st).loadByte addr = s.loadByte addr := rfl
@[simp] theorem State.setStatus_isWritten (s : State) (st : Status) (k : RegIndex) : (s.setStatus st).isWritten k = s.isWritten k := rfl
@[simp] theorem State.setStatus_reg (s : State) (st : Status) (k : RegIndex) : (s.setStatus st).reg k = s.reg k := rfl
@[simp] theorem State.setStatus_readReg (s : State) (st : Status) (k : RegIndex) : (s.setStatus st).readReg k = s.readReg k := rfl
@[simp] theorem State.setStatus_sp (s : State) (st : Status) : (s.setStatus st).sp = s.sp := rfl
@[simp] theorem State.setStatus_pushAddr (s : State) (st : Status) : (s.setStatus st).pushAddr = s.pushAddr := rfl
@[simp] theorem State.setStatus_popSp (s : State) (st : Status) : (s.setStatus st).popSp = s.popSp := rfl

/-! ### State.emit -/

@[simp] theorem State.emit_params (s : State) (v : Byte) : (s.emit v).params = s.params := rfl
@[simp] theorem State.emit_regs (s : State) (v : Byte) : (s.emit v).regs = s.regs := rfl
@[simp] theorem State.emit_written (s : State) (v : Byte) : (s.emit v).written = s.written := rfl
@[simp] theorem State.emit_pc (s : State) (v : Byte) : (s.emit v).pc = s.pc := rfl
@[simp] theorem State.emit_flag (s : State) (v : Byte) : (s.emit v).flag = s.flag := rfl
@[simp] theorem State.emit_ir (s : State) (v : Byte) : (s.emit v).ir = s.ir := rfl
@[simp] theorem State.emit_status (s : State) (v : Byte) : (s.emit v).status = s.status := rfl
@[simp] theorem State.emit_faultRecord (s : State) (v : Byte) : (s.emit v).faultRecord = s.faultRecord := rfl
@[simp] theorem State.emit_output (s : State) (v : Byte) : (s.emit v).output = s.output ++ [v] := rfl
@[simp] theorem State.emit_mem (s : State) (v : Byte) : (s.emit v).mem = s.mem := rfl
@[simp] theorem State.emit_readByte (s : State) (v : Byte) (addr : Byte) : (s.emit v).readByte addr = s.readByte addr := rfl
@[simp] theorem State.emit_loadByte (s : State) (v : Byte) (addr : Byte) : (s.emit v).loadByte addr = s.loadByte addr := rfl
@[simp] theorem State.emit_isWritten (s : State) (v : Byte) (k : RegIndex) : (s.emit v).isWritten k = s.isWritten k := rfl
@[simp] theorem State.emit_reg (s : State) (v : Byte) (k : RegIndex) : (s.emit v).reg k = s.reg k := rfl
@[simp] theorem State.emit_readReg (s : State) (v : Byte) (k : RegIndex) : (s.emit v).readReg k = s.readReg k := rfl
@[simp] theorem State.emit_sp (s : State) (v : Byte) : (s.emit v).sp = s.sp := rfl
@[simp] theorem State.emit_pushAddr (s : State) (v : Byte) : (s.emit v).pushAddr = s.pushAddr := rfl
@[simp] theorem State.emit_popSp (s : State) (v : Byte) : (s.emit v).popSp = s.popSp := rfl

/-! ### State.writeByte -/

@[simp] theorem State.writeByte_params (s : State) (a v : Byte) : (s.writeByte a v).params = s.params := rfl
@[simp] theorem State.writeByte_regs (s : State) (a v : Byte) : (s.writeByte a v).regs = s.regs := rfl
@[simp] theorem State.writeByte_written (s : State) (a v : Byte) : (s.writeByte a v).written = s.written := rfl
@[simp] theorem State.writeByte_pc (s : State) (a v : Byte) : (s.writeByte a v).pc = s.pc := rfl
@[simp] theorem State.writeByte_flag (s : State) (a v : Byte) : (s.writeByte a v).flag = s.flag := rfl
@[simp] theorem State.writeByte_ir (s : State) (a v : Byte) : (s.writeByte a v).ir = s.ir := rfl
@[simp] theorem State.writeByte_status (s : State) (a v : Byte) : (s.writeByte a v).status = s.status := rfl
@[simp] theorem State.writeByte_faultRecord (s : State) (a v : Byte) : (s.writeByte a v).faultRecord = s.faultRecord := rfl
@[simp] theorem State.writeByte_output (s : State) (a v : Byte) : (s.writeByte a v).output = s.output := rfl
@[simp] theorem State.writeByte_mem (s : State) (a v : Byte) : (s.writeByte a v).mem = Memory.write s.mem a.toNat v := rfl
@[simp] theorem State.writeByte_isWritten (s : State) (a v : Byte) (k : RegIndex) : (s.writeByte a v).isWritten k = s.isWritten k := rfl
@[simp] theorem State.writeByte_reg (s : State) (a v : Byte) (k : RegIndex) : (s.writeByte a v).reg k = s.reg k := rfl
@[simp] theorem State.writeByte_readReg (s : State) (a v : Byte) (k : RegIndex) : (s.writeByte a v).readReg k = s.readReg k := rfl
@[simp] theorem State.writeByte_sp (s : State) (a v : Byte) : (s.writeByte a v).sp = s.sp := rfl
@[simp] theorem State.writeByte_pushAddr (s : State) (a v : Byte) : (s.writeByte a v).pushAddr = s.pushAddr := rfl
@[simp] theorem State.writeByte_popSp (s : State) (a v : Byte) : (s.writeByte a v).popSp = s.popSp := rfl

/-! ### takeFault -/

@[simp] theorem takeFault_params (s : State) (c : Cause) (n : FaultInfo) : (takeFault c n s).params = s.params := rfl
@[simp] theorem takeFault_regs (s : State) (c : Cause) (n : FaultInfo) : (takeFault c n s).regs = s.regs := rfl
@[simp] theorem takeFault_written (s : State) (c : Cause) (n : FaultInfo) : (takeFault c n s).written = s.written := rfl
@[simp] theorem takeFault_pc (s : State) (c : Cause) (n : FaultInfo) : (takeFault c n s).pc = s.pc := rfl
@[simp] theorem takeFault_flag (s : State) (c : Cause) (n : FaultInfo) : (takeFault c n s).flag = s.flag := rfl
@[simp] theorem takeFault_ir (s : State) (c : Cause) (n : FaultInfo) : (takeFault c n s).ir = s.ir := rfl
@[simp] theorem takeFault_status (s : State) (c : Cause) (n : FaultInfo) : (takeFault c n s).status = .faulted := rfl
@[simp] theorem takeFault_faultRecord (s : State) (c : Cause) (n : FaultInfo) : (takeFault c n s).faultRecord = { cause := c, pc := s.pc, info := n } := rfl
@[simp] theorem takeFault_output (s : State) (c : Cause) (n : FaultInfo) : (takeFault c n s).output = s.output := rfl
@[simp] theorem takeFault_mem (s : State) (c : Cause) (n : FaultInfo) : (takeFault c n s).mem = s.mem := rfl
@[simp] theorem takeFault_readByte (s : State) (c : Cause) (n : FaultInfo) (addr : Byte) : (takeFault c n s).readByte addr = s.readByte addr := rfl
@[simp] theorem takeFault_loadByte (s : State) (c : Cause) (n : FaultInfo) (addr : Byte) : (takeFault c n s).loadByte addr = s.loadByte addr := rfl
@[simp] theorem takeFault_isWritten (s : State) (c : Cause) (n : FaultInfo) (k : RegIndex) : (takeFault c n s).isWritten k = s.isWritten k := rfl
@[simp] theorem takeFault_reg (s : State) (c : Cause) (n : FaultInfo) (k : RegIndex) : (takeFault c n s).reg k = s.reg k := rfl
@[simp] theorem takeFault_readReg (s : State) (c : Cause) (n : FaultInfo) (k : RegIndex) : (takeFault c n s).readReg k = s.readReg k := rfl
@[simp] theorem takeFault_sp (s : State) (c : Cause) (n : FaultInfo) : (takeFault c n s).sp = s.sp := rfl
@[simp] theorem takeFault_pushAddr (s : State) (c : Cause) (n : FaultInfo) : (takeFault c n s).pushAddr = s.pushAddr := rfl
@[simp] theorem takeFault_popSp (s : State) (c : Cause) (n : FaultInfo) : (takeFault c n s).popSp = s.popSp := rfl

/-! ### Reset -/

@[simp] theorem State.resetWith_status (p : Params) : (State.resetWith p).status = .idle := rfl
@[simp] theorem State.resetWith_pc (p : Params) : (State.resetWith p).pc = 0 := rfl
@[simp] theorem State.resetWith_mem (p : Params) : (State.resetWith p).mem = [] := rfl
@[simp] theorem State.resetWith_params (p : Params) : (State.resetWith p).params = p := rfl

end Sys2Proof.Machine
end

