-- ==== Sys2Proof/Laws/Memory.lean ====
section
/-! SUPPORT. The memory's laws: a read after a write, every operation keeps the canonical form, and the same through State's
accessors. -/

namespace Sys2Proof.Machine

@[simp] theorem Memory.read_nil (a : Nat) : Memory.read [] a = none := rfl

theorem Memory.read_write_same (m : Memory) (a : Nat) (v : Byte) : (m.write a v).read a = some v := by
  induction m with
  | nil => simp [Memory.write, Memory.read]
  | cons c m ih =>
    obtain ⟨b, w⟩ := c
    simp only [Memory.write]
    split
    · simp [Memory.read]
    · split
      · simp [Memory.read]
      · next h1 h2 => simpa [Memory.read, Ne.symm h2] using ih

theorem Memory.read_write_other (m : Memory) {a b : Nat} (v : Byte) (h : b ≠ a) : (m.write a v).read b = m.read b := by
  induction m with
  | nil => simp [Memory.write, Memory.read, Ne.symm h, Memory.unlisted]
  | cons c m ih =>
    obtain ⟨d, w⟩ := c
    simp only [Memory.write]
    split
    · simp [Memory.read, Ne.symm h]
    · split
      · next h2 => subst h2; simp [Memory.read, Ne.symm h]
      · simp only [Memory.read, ih]

theorem Memory.mem_write {m : Memory} {a : Nat} {v : Byte} {c : Host.Cell} (h : c ∈ m.write a v) : c = (a, v) ∨ c ∈ m := by
  induction m with
  | nil => simpa [Memory.write] using h
  | cons d m ih =>
    obtain ⟨b, w⟩ := d
    simp only [Memory.write] at h
    split at h
    · simpa using h
    · split at h
      · rcases List.mem_cons.1 h with h | h <;> simp [h]
      · rcases List.mem_cons.1 h with h | h
        · simp [h]
        · rcases ih h with h | h <;> simp [h]

/-- A write inside the address space keeps the canonical form. -/
theorem Memory.write_wf {m : Memory} (hm : m.wf) {a : Nat} (ha : a < 256) (v : Byte) : (m.write a v).wf := by
  refine ⟨?_, fun c hc => ?_⟩
  · obtain ⟨hp, -⟩ := hm
    induction m with
    | nil => simp [Memory.write]
    | cons d m ih =>
      obtain ⟨b, w⟩ := d
      obtain ⟨hd, hq⟩ := List.pairwise_cons.1 hp
      simp only [Memory.write]
      split
      · next h =>
        refine List.pairwise_cons.2 ⟨fun c hc => ?_, List.pairwise_cons.2 ⟨hd, hq⟩⟩
        rcases List.mem_cons.1 hc with rfl | hc
        · exact h
        · exact lt_trans h (hd c hc)
      · split
        · next h => subst h; exact List.pairwise_cons.2 ⟨hd, hq⟩
        · next h1 h2 =>
          refine List.pairwise_cons.2 ⟨fun c hc => ?_, ih hq⟩
          rcases Memory.mem_write hc with rfl | hc
          · show b < a; omega
          · exact hd c hc
  · rcases Memory.mem_write hc with rfl | hc
    · exact ha
    · exact hm.2 c hc

/-- Writing a list of bytes inside the address space keeps the canonical form. -/
theorem Memory.writeFrom_wf {bs : List Byte} : ∀ {m : Memory} {start : Nat}, m.wf → start + bs.length ≤ 256 →
    (m.writeFrom start bs).wf := by
  induction bs with
  | nil => intro m start hm _; exact hm
  | cons b bs ih =>
    intro m start hm h
    rw [List.length_cons] at h
    exact ih (Memory.write_wf hm (by omega) b) (by omega)

theorem Memory.read_writeFrom_below {bs : List Byte} : ∀ {m : Memory} {start a : Nat}, a < start →
    (m.writeFrom start bs).read a = m.read a := by
  induction bs with
  | nil => intro m start a _; rfl
  | cons b bs ih =>
    intro m start a h
    rw [Memory.writeFrom, ih (by omega), Memory.read_write_other _ _ (by omega)]

theorem Memory.read_writeFrom_above {bs : List Byte} : ∀ {m : Memory} {start a : Nat}, start + bs.length ≤ a →
    (m.writeFrom start bs).read a = m.read a := by
  induction bs with
  | nil => intro m start a _; rfl
  | cons b bs ih =>
    intro m start a h
    rw [List.length_cons] at h
    rw [Memory.writeFrom, ih (by omega), Memory.read_write_other _ _ (by omega)]

theorem Memory.read_writeFrom_inside {bs : List Byte} : ∀ {m : Memory} {start k : Nat} (h : k < bs.length),
    (m.writeFrom start bs).read (start + k) = some bs[k] := by
  induction bs with
  | nil => intro m start k h; simp at h
  | cons b bs ih =>
    intro m start k h
    cases k with
    | zero => rw [Memory.writeFrom, Memory.read_writeFrom_below (by omega)]; simpa using Memory.read_write_same m start b
    | succ k =>
      rw [List.length_cons] at h
      have := ih (m := m.write start b) (start := start + 1) (k := k) (by omega)
      rw [Memory.writeFrom, show start + (k + 1) = start + 1 + k by omega, this]
      simp

/-! ### Through State -/

theorem State.readByte_writeByte (s : State) (a v b : Byte) :
    (s.writeByte a v).readByte b = if b = a then some v else s.readByte b := by
  unfold State.readByte
  rw [State.writeByte_mem]
  split
  · next h => subst h; exact Memory.read_write_same _ _ _
  · next h => exact Memory.read_write_other _ _ fun e => h (BitVec.eq_of_toNat_eq e)

@[simp] theorem State.readByte_writeByte_same (s : State) (a v : Byte) : (s.writeByte a v).readByte a = some v := by
  simp [State.readByte_writeByte]

theorem State.readByte_writeByte_other (s : State) {a b : Byte} (v : Byte) (h : b ≠ a) :
    (s.writeByte a v).readByte b = s.readByte b := by
  simp [State.readByte_writeByte, h]

/-- A written cell loads as it reads. -/
theorem State.loadByte_of_readByte {s : State} {a v : Byte} (h : s.readByte a = some v) : s.loadByte a = some v := by
  simp [State.loadByte, h]

/-- A load fails exactly on an unwritten cell under UNINIT_POLICY = FAULT. -/
theorem State.loadByte_eq_none {s : State} {a : Byte} :
    s.loadByte a = none ↔ s.readByte a = none ∧ s.params.uninit = .fault := by
  unfold State.loadByte
  cases s.readByte a <;> cases s.params.uninit <;> simp

/-- A load that gives a byte other than 0 reads a written cell. -/
theorem State.readByte_of_loadByte {s : State} {a v : Byte} (h : s.loadByte a = some v) (hv : v ≠ 0) :
    s.readByte a = some v := by
  unfold State.loadByte at h
  cases hr : s.readByte a <;> cases hp : s.params.uninit <;> simp_all

theorem State.loadByte_congr {s t : State} {a : Byte} (hr : t.readByte a = s.readByte a) (hp : t.params = s.params) :
    t.loadByte a = s.loadByte a := by
  simp [State.loadByte, hr, hp]

/-- Reset's memory is canonical. -/
theorem State.reset_mem_wf : State.reset.mem.wf := by decide

end Sys2Proof.Machine
end

