-- ==== Sys2Proof/Laws/Registers.lean ====
section
/-! SUPPORT. The register file's laws: a read after a write, the written marks, and the stack addresses as numbers. -/

namespace Sys2Proof.Machine

@[simp] theorem State.isWritten_setReg_same (s : State) (i : RegIndex) (v : Byte) : (s.setReg i v).isWritten i = true := by
  unfold State.isWritten
  by_cases h : i.val < 7 <;> simp [h]

theorem State.isWritten_setReg_other (s : State) {i j : RegIndex} (v : Byte) (h : j ≠ i) :
    (s.setReg i v).isWritten j = s.isWritten j := by
  have h' : i.val ≠ j.val := fun e => h (Fin.ext e.symm)
  unfold State.isWritten
  by_cases hi : i.val < 7 <;> by_cases hj : j.val < 7 <;> simp [hi, hj, h']

@[simp] theorem State.reg_setReg_same (s : State) (i : RegIndex) (v : Byte) : (s.setReg i v).reg i = v := by
  simp [State.reg]

theorem State.reg_setReg_other (s : State) {i j : RegIndex} (v : Byte) (h : j ≠ i) : (s.setReg i v).reg j = s.reg j := by
  have h' : i.val ≠ j.val := fun e => h (Fin.ext e.symm)
  simp [State.reg, State.isWritten_setReg_other s v h, h']

/-- One register's write, and every register's read after it. -/
theorem State.reg_setReg (s : State) (i j : RegIndex) (v : Byte) :
    (s.setReg i v).reg j = if j = i then v else s.reg j := by
  by_cases h : j = i
  · subst h; simp
  · simp [State.reg_setReg_other s v h, h]

theorem State.isWritten_setReg (s : State) (i j : RegIndex) (v : Byte) :
    (s.setReg i v).isWritten j = if j = i then true else s.isWritten j := by
  by_cases h : j = i
  · subst h; simp
  · simp [State.isWritten_setReg_other s v h, h]

/-- R7 is always written (R18). -/
@[simp] theorem State.isWritten_seven (s : State) : s.isWritten 7 = true := rfl

theorem State.sp_eq (s : State) : s.sp = s.reg 7 := rfl

theorem wrap8_toNat (n : Int) : (wrap8 n).toNat = (n % 256).toNat := by
  simp [wrap8, BitVec.toNat_ofInt]

theorem State.pushAddr_toNat (s : State) : s.pushAddr.toNat = ((s.reg 7).toNat + 255) % 256 := by
  have := (s.reg 7).isLt
  rw [State.pushAddr, wrap8_toNat, State.sp_eq]; omega

theorem State.popSp_toNat (s : State) : s.popSp.toNat = ((s.reg 7).toNat + 1) % 256 := by
  have := (s.reg 7).isLt
  rw [State.popSp, wrap8_toNat, State.sp_eq]; omega

/-- Reading a register gives its value or fails, and fails exactly on an unwritten register under UNINIT_POLICY = FAULT. -/
theorem State.readReg_eq (s : State) (i : RegIndex) :
    s.readReg i = some (s.reg i) ∨
      s.readReg i = none ∧ s.isWritten i = false ∧ s.params.uninit = .fault := by
  unfold State.readReg
  cases s.isWritten i <;> cases s.params.uninit <;> simp

theorem State.readReg_of_written {s : State} {i : RegIndex} (h : s.isWritten i = true) : s.readReg i = some (s.reg i) := by
  simp [State.readReg, h]

theorem State.readReg_of_zero {s : State} (i : RegIndex) (h : s.params.uninit = .zero) : s.readReg i = some (s.reg i) := by
  simp [State.readReg, h]

theorem State.readReg_of_unwritten {s : State} {i : RegIndex} (h : s.isWritten i = false) (hp : s.params.uninit = .fault) :
    s.readReg i = none := by
  simp [State.readReg, h, hp]

theorem State.readReg_congr {s t : State} {i : RegIndex} (hr : t.reg i = s.reg i) (hw : t.isWritten i = s.isWritten i)
    (hp : t.params = s.params) : t.readReg i = s.readReg i := by
  simp [State.readReg, hr, hw, hp]

end Sys2Proof.Machine
end

