-- ==== Sys2Proof/Laws/Operands.lean ====
section
/-! SUPPORT. One lemma per check and per shared operation that says all it can do: where it passes, where it faults, and the case
split a proof needs. -/

namespace Sys2Proof.Machine

theorem regIndex?_of_ge {b : Byte} (h : 8 ≤ b.toNat) : regIndex? b = none := by
  simp [regIndex?]; omega

theorem regIndex?_of_lt {b : Byte} (h : b.toNat < 8) : regIndex? b = some ⟨b.toNat, h⟩ := by
  simp [regIndex?, h]

theorem regByte_toNat (i : RegIndex) : (regByte i).toNat = i.val := by
  have := i.isLt
  simp [regByte]; omega

@[simp] theorem regIndex?_regByte (i : RegIndex) : regIndex? (regByte i) = some i := by
  rw [regIndex?_of_lt (by rw [regByte_toNat]; exact i.isLt)]
  simp [regByte_toNat]

/-- Every byte is the operand byte of a register, or no register's. -/
theorem regIndex?_cases (b : Byte) :
    (∃ i : RegIndex, b = regByte i ∧ b.toNat = i.val ∧ regIndex? b = some i) ∨ (8 ≤ b.toNat ∧ regIndex? b = none) := by
  by_cases h : b.toNat < 8
  · refine .inl ⟨⟨b.toNat, h⟩, BitVec.eq_of_toNat_eq ?_, rfl, regIndex?_of_lt h⟩
    rw [regByte_toNat]
  · exact .inr ⟨by omega, regIndex?_of_ge (by omega)⟩

/-- Check C5, both ways. -/
theorem withIndex_cases (b : Byte) (s : State) (k : RegIndex → Result) :
    (∃ i : RegIndex, b = regByte i ∧ withIndex b s k = k i) ∨
      8 ≤ b.toNat ∧ withIndex b s k = raise .regIndex (.number b.toNat) s := by
  rcases regIndex?_cases b with ⟨i, hb, -, h⟩ | ⟨hb, h⟩
  · exact .inl ⟨i, hb, by simp [withIndex, h]⟩
  · exact .inr ⟨hb, by simp [withIndex, h]⟩

@[simp] theorem withIndex_regByte (i : RegIndex) (s : State) (k : RegIndex → Result) : withIndex (regByte i) s k = k i := by
  simp [withIndex]

theorem withIndex_of_ge {b : Byte} (h : 8 ≤ b.toNat) (s : State) (k : RegIndex → Result) :
    withIndex b s k = raise .regIndex (.number b.toNat) s := by
  simp [withIndex, regIndex?_of_ge h]

/-- Check C6, both ways. -/
theorem withReg_cases (i : RegIndex) (s : State) (k : Byte → Result) :
    withReg i s k = k (s.reg i) ∨
      withReg i s k = raise .uninit (.reg i) s ∧ s.isWritten i = false ∧ s.params.uninit = .fault := by
  rcases s.readReg_eq i with h | ⟨h, hw, hp⟩
  · exact .inl (by simp [withReg, h])
  · exact .inr ⟨by simp [withReg, h], hw, hp⟩

theorem withReg_of_readable {i : RegIndex} {s : State} (h : s.isWritten i = true ∨ s.params.uninit = .zero)
    (k : Byte → Result) : withReg i s k = k (s.reg i) := by
  rcases h with h | h
  · simp [withReg, State.readReg_of_written h]
  · simp [withReg, State.readReg_of_zero i h]

theorem withReg_of_not_readable {i : RegIndex} {s : State} (h : ¬ (s.isWritten i = true ∨ s.params.uninit = .zero))
    (k : Byte → Result) : withReg i s k = raise .uninit (.reg i) s := by
  have hw : s.isWritten i = false := by simpa using fun e => h (.inl e)
  have hp : s.params.uninit = .fault := by
    cases hp : s.params.uninit
    · rfl
    · exact absurd (.inr hp) h
  simp [withReg, State.readReg_of_unwritten hw hp]

/-- Check C9, both ways. -/
theorem withStackByte_cases (s : State) (k : Byte → Result) :
    (∃ v : Byte, s.loadByte s.sp = some v ∧ withStackByte s k = k v) ∨
      s.loadByte s.sp = none ∧ withStackByte s k = raise .uninit (.mem s.sp) s := by
  cases h : s.loadByte s.sp with
  | some v => exact .inl ⟨v, rfl, by simp [withStackByte, h]⟩
  | none => exact .inr ⟨rfl, by simp [withStackByte, h]⟩

theorem withStackByte_of_some {s : State} {v : Byte} (h : s.loadByte (s.reg 7) = some v) (k : Byte → Result) :
    withStackByte s k = k v := by
  simp [withStackByte, State.sp_eq, h]

theorem withStackByte_of_none {s : State} (h : s.loadByte (s.reg 7) = none) (k : Byte → Result) :
    withStackByte s k = raise .uninit (.mem (s.reg 7)) s := by
  simp [withStackByte, State.sp_eq, h]

/-- Check C10, both ways. -/
theorem withPcPlus_cases (n : Nat) (s : State) (k : Byte → Result) :
    (s.pc.toNat + n ≤ 255 ∧ withPcPlus n s k = k (BitVec.ofNat 8 (s.pc.toNat + n))) ∨
      255 < s.pc.toNat + n ∧ withPcPlus n s k = raise .address (.number 256) s := by
  by_cases h : s.pc.toNat + n ≤ 255
  · exact .inl ⟨h, by simp [withPcPlus, h]⟩
  · exact .inr ⟨by omega, by simp [withPcPlus, h, addressPastTop]⟩

theorem withPcPlus_of_le {n : Nat} {s : State} (h : s.pc.toNat + n ≤ 255) (k : Byte → Result) :
    withPcPlus n s k = k (BitVec.ofNat 8 (s.pc.toNat + n)) := by
  simp [withPcPlus, h]

theorem withPcPlus_of_gt {n : Nat} {s : State} (h : 255 < s.pc.toNat + n) (k : Byte → Result) :
    withPcPlus n s k = raise .address (.number 256) s := by
  simp [withPcPlus, addressPastTop, show ¬ s.pc.toNat + n ≤ 255 by omega]

/-- The successor's value: no wrapping where check C10 passes. -/
theorem pcPlus_toNat {p n : Nat} (h : p + n ≤ 255) : (BitVec.ofNat 8 (p + n)).toNat = p + n := by
  rw [BitVec.toNat_ofNat]; omega

/-- Check C7, in each of the flag's values. -/
theorem withFlagEqual_unset {s : State} (h : s.flag = .unset) (k : Bool → Result) :
    withFlagEqual s k = raise .uninit .flag s := by
  simp [withFlagEqual, h]

theorem withFlagEqual_equal {s : State} (h : s.flag = .equal) (k : Bool → Result) : withFlagEqual s k = k true := by
  simp [withFlagEqual, h]

theorem withFlagEqual_unequal {s : State} (h : s.flag = .greater ∨ s.flag = .less) (k : Bool → Result) :
    withFlagEqual s k = k false := by
  rcases h with h | h <;> simp [withFlagEqual, h]

/-- C5 and C6 of a one-register instruction, all three ways. -/
theorem withOperand_cases (a : Byte) (s : State) (k : RegIndex → Byte → Result) :
    (∃ i : RegIndex, a = regByte i ∧ withOperand a s k = k i (s.reg i)) ∨
    (8 ≤ a.toNat ∧ withOperand a s k = raise .regIndex (.number a.toNat) s) ∨
    (∃ i : RegIndex, a = regByte i ∧ withOperand a s k = raise .uninit (.reg i) s ∧ s.isWritten i = false ∧
      s.params.uninit = .fault) := by
  rcases withIndex_cases a s fun i => withReg i s fun x => k i x with ⟨i, ha, h⟩ | ⟨ha, h⟩
  · rcases withReg_cases i s (k i) with h' | ⟨h', hw, hp⟩
    · exact .inl ⟨i, ha, h.trans h'⟩
    · exact .inr (.inr ⟨i, ha, h.trans h', hw, hp⟩)
  · exact .inr (.inl ⟨ha, h⟩)

/-- C5 and C6 of a two-register instruction: it goes on with both values, or one of the two faults is raised. -/
theorem withOperands_cases (a b : Byte) (s : State) (k : RegIndex → RegIndex → Byte → Byte → Result) :
    (∃ i j : RegIndex, a = regByte i ∧ b = regByte j ∧ withOperands a b s k = k i j (s.reg i) (s.reg j)) ∨
    (∃ c : Byte, 8 ≤ c.toNat ∧ withOperands a b s k = raise .regIndex (.number c.toNat) s) ∨
    (∃ i : RegIndex, withOperands a b s k = raise .uninit (.reg i) s ∧ s.isWritten i = false ∧
      s.params.uninit = .fault) := by
  unfold withOperands
  rcases withIndex_cases a s fun i => withIndex b s fun j => withReg i s fun x => withReg j s fun y => k i j x y
    with ⟨i, ha, h⟩ | ⟨ha, h⟩
  · rcases withIndex_cases b s fun j => withReg i s fun x => withReg j s fun y => k i j x y with ⟨j, hb, h1⟩ | ⟨hb, h1⟩
    · rcases withReg_cases i s fun x => withReg j s fun y => k i j x y with h2 | ⟨h2, hw, hp⟩
      · rcases withReg_cases j s fun y => k i j (s.reg i) y with h3 | ⟨h3, hw, hp⟩
        · exact .inl ⟨i, j, ha, hb, h.trans (h1.trans (h2.trans h3))⟩
        · exact .inr (.inr ⟨j, h.trans (h1.trans (h2.trans h3)), hw, hp⟩)
      · exact .inr (.inr ⟨i, h.trans (h1.trans h2), hw, hp⟩)
    · exact .inr (.inl ⟨b, hb, h.trans h1⟩)
  · exact .inr (.inl ⟨a, ha, h⟩)

theorem raise_eq (c : Cause) (n : FaultInfo) (s : State) : raise c n s = .next (takeFault c n s) := rfl

/-! ### The push -/

/-- A push leaves everything but the stack pointer and the one cell. -/
theorem pushByte_eq (v : State → Byte) (s : State) :
    pushByte v s = (s.setReg 7 s.pushAddr).writeByte s.pushAddr (v (s.setReg 7 s.pushAddr)) := rfl

theorem pushByte_mem_wf {s : State} (h : s.mem.wf) (v : State → Byte) : (pushByte v s).mem.wf :=
  Memory.write_wf h (BitVec.isLt _) _

/-! ### The ALU -/

/-- The ALU answers no value for a division by zero, and for nothing else (R93). -/
theorem alu_eq_none {op : AluOp} {a b : Byte} : alu op a b = none ↔ op = .div ∧ b = 0 := by
  cases op <;> simp [alu]

end Sys2Proof.Machine
end

