-- ==== Sys2Proof/Laws/Exec.lean ====
section
/-! SUPPORT. What each meaning can do, said once: it takes a fault whose ground is true of the state, or it commits with the
state given. Every frame, invariant and whole-machine rule can start from these. -/

namespace Sys2Proof.Machine

/-- The outcome is a fault taken at `s`, on a ground that is true there. -/
def Faults (r : Result) (s : State) : Prop :=
  ∃ (c : Cause) (n : FaultInfo), r = .next (takeFault c n s) ∧ FaultGround s c n

theorem Faults.of_eq {r r' : Result} {s : State} (h : r = r') (hf : Faults r' s) : Faults r s := h ▸ hf

/-! ### The checks -/

theorem withIndex_inv (b : Byte) (s : State) (k : RegIndex → Result) :
    (∃ i : RegIndex, b = regByte i ∧ withIndex b s k = k i) ∨ Faults (withIndex b s k) s := by
  rcases withIndex_cases b s k with h | ⟨hb, h⟩
  · exact .inl h
  · exact .inr ⟨_, _, h, hb, b.isLt⟩

theorem withReg_inv (i : RegIndex) (s : State) (k : Byte → Result) :
    withReg i s k = k (s.reg i) ∨ Faults (withReg i s k) s := by
  rcases withReg_cases i s k with h | ⟨h, hw, hp⟩
  · exact .inl h
  · exact .inr ⟨_, _, h, hw, hp⟩

theorem withStackByte_inv (s : State) (k : Byte → Result) :
    (∃ v : Byte, s.loadByte (s.reg 7) = some v ∧ withStackByte s k = k v) ∨ Faults (withStackByte s k) s := by
  rcases withStackByte_cases s k with h | ⟨hn, h⟩
  · exact .inl h
  · exact .inr ⟨_, _, h, State.loadByte_eq_none.1 hn⟩

theorem withPcPlus_inv (n : Nat) (s : State) (k : Byte → Result) :
    (s.pc.toNat + n ≤ 255 ∧ withPcPlus n s k = k (BitVec.ofNat 8 (s.pc.toNat + n))) ∨ Faults (withPcPlus n s k) s := by
  rcases withPcPlus_cases n s k with h | ⟨-, h⟩
  · exact .inl h
  · exact .inr ⟨_, _, h, rfl⟩

theorem withFlagEqual_inv (s : State) (k : Bool → Result) :
    (s.flag = .equal ∧ withFlagEqual s k = k true) ∨
      ((s.flag = .greater ∨ s.flag = .less) ∧ withFlagEqual s k = k false) ∨ Faults (withFlagEqual s k) s := by
  cases h : s.flag
  · exact .inr (.inr ⟨_, _, withFlagEqual_unset h k, h⟩)
  · exact .inl ⟨rfl, withFlagEqual_equal h k⟩
  · exact .inr (.inl ⟨.inl rfl, withFlagEqual_unequal (.inl h) k⟩)
  · exact .inr (.inl ⟨.inr rfl, withFlagEqual_unequal (.inr h) k⟩)

theorem withOperand_inv (a : Byte) (s : State) (k : RegIndex → Byte → Result) :
    (∃ i : RegIndex, a = regByte i ∧ withOperand a s k = k i (s.reg i)) ∨ Faults (withOperand a s k) s := by
  rcases withIndex_inv a s fun i => withReg i s fun x => k i x with ⟨i, ha, h⟩ | h
  · rcases withReg_inv i s (k i) with h' | h'
    · exact .inl ⟨i, ha, h.trans h'⟩
    · exact .inr (h'.of_eq h)
  · exact .inr h

theorem withOperands_inv (a b : Byte) (s : State) (k : RegIndex → RegIndex → Byte → Byte → Result) :
    (∃ i j : RegIndex, a = regByte i ∧ b = regByte j ∧ withOperands a b s k = k i j (s.reg i) (s.reg j)) ∨
      Faults (withOperands a b s k) s := by
  rcases withOperands_cases a b s k with h | ⟨c, hc, h⟩ | ⟨i, h, hw, hp⟩
  · exact .inl h
  · exact .inr ⟨_, _, h, hc, c.isLt⟩
  · exact .inr ⟨_, _, h, hw, hp⟩

/-! ### The meanings -/

theorem execHalt_eq (s : State) : execHalt s = .next (s.setStatus .halted) := rfl

theorem execRet_inv (s : State) :
    (∃ v : Byte, s.loadByte (s.reg 7) = some v ∧ execRet s = .next ((s.setReg 7 s.popSp).setPc v)) ∨
      Faults (execRet s) s :=
  withStackByte_inv s fun v => .next ((s.setReg 7 s.popSp).setPc v)

theorem execPush_inv (a : Byte) (s : State) :
    (∃ i : RegIndex, a = regByte i ∧ s.pc.toNat + 2 ≤ 255 ∧ execPush a s =
      .next ((pushByte (fun s1 => s1.reg i) s).setPc (BitVec.ofNat 8 (s.pc.toNat + 2)))) ∨ Faults (execPush a s) s := by
  rcases withOperand_inv a s fun i _ => withPcPlus 2 s fun pc' => .next ((pushByte (fun s1 => s1.reg i) s).setPc pc')
    with ⟨i, ha, h⟩ | h
  · rcases withPcPlus_inv 2 s fun pc' => .next ((pushByte (fun s1 => s1.reg i) s).setPc pc') with ⟨hp, h'⟩ | h'
    · exact .inl ⟨i, ha, hp, h.trans h'⟩
    · exact .inr (h'.of_eq h)
  · exact .inr h

theorem execPop_inv (a : Byte) (s : State) :
    (∃ (i : RegIndex) (v : Byte), a = regByte i ∧ s.loadByte (s.reg 7) = some v ∧ s.pc.toNat + 2 ≤ 255 ∧ execPop a s =
      .next (((s.setReg i v).setReg 7 (s.setReg i v).popSp).setPc (BitVec.ofNat 8 (s.pc.toNat + 2)))) ∨
      Faults (execPop a s) s := by
  unfold execPop
  rcases withIndex_inv a s _ with ⟨i, ha, h⟩ | h
  · rcases withStackByte_inv s _ with ⟨v, hv, h1⟩ | h1
    · rcases withPcPlus_inv 2 s _ with ⟨hp, h2⟩ | h2
      · exact .inl ⟨i, v, ha, hv, hp, h.trans (h1.trans h2)⟩
      · exact .inr ((h2.of_eq h1).of_eq h)
    · exact .inr (h1.of_eq h)
  · exact .inr h

theorem execPrintReg_inv (a : Byte) (s : State) :
    (∃ i : RegIndex, a = regByte i ∧ s.pc.toNat + 2 ≤ 255 ∧
      execPrintReg a s = .next ((s.emit (s.reg i)).setPc (BitVec.ofNat 8 (s.pc.toNat + 2)))) ∨
      Faults (execPrintReg a s) s := by
  unfold execPrintReg
  rcases withOperand_inv a s _ with ⟨i, ha, h⟩ | h
  · rcases withPcPlus_inv 2 s _ with ⟨hp, h'⟩ | h'
    · exact .inl ⟨i, ha, hp, h.trans h'⟩
    · exact .inr (h'.of_eq h)
  · exact .inr h

theorem execCall_inv (a : Byte) (s : State) :
    (∃ i : RegIndex, a = regByte i ∧ s.pc.toNat + 2 ≤ 255 ∧ execCall a s =
      .next ((pushByte (fun _ => BitVec.ofNat 8 (s.pc.toNat + 2)) s).setPc
        ((pushByte (fun _ => BitVec.ofNat 8 (s.pc.toNat + 2)) s).reg i))) ∨ Faults (execCall a s) s := by
  unfold execCall
  rcases withOperand_inv a s _ with ⟨i, ha, h⟩ | h
  · rcases withPcPlus_inv 2 s _ with ⟨hp, h'⟩ | h'
    · exact .inl ⟨i, ha, hp, h.trans h'⟩
    · exact .inr (h'.of_eq h)
  · exact .inr h

theorem execJump_inv (a : Byte) (s : State) :
    (∃ i : RegIndex, a = regByte i ∧ execJump a s = .next (s.setPc (s.reg i))) ∨ Faults (execJump a s) s :=
  withOperand_inv a s fun _ x => .next (s.setPc x)

theorem branch_inv (taken : Bool) (x : Byte) (s : State) :
    (∃ t : Byte, branch taken x s = .next (s.setPc t)) ∨ Faults (branch taken x s) s := by
  cases taken
  · rcases withPcPlus_inv 2 s fun pc' => .next (s.setPc pc') with ⟨-, h⟩ | h
    · exact .inl ⟨_, h⟩
    · exact .inr h
  · exact .inl ⟨x, rfl⟩

theorem execJumpIfEqual_inv (a : Byte) (s : State) :
    (∃ t : Byte, execJumpIfEqual a s = .next (s.setPc t)) ∨ Faults (execJumpIfEqual a s) s := by
  unfold execJumpIfEqual
  rcases withOperand_inv a s _ with ⟨i, -, h⟩ | h
  · rcases withFlagEqual_inv s _ with ⟨-, h1⟩ | ⟨-, h1⟩ | h1
    · exact (branch_inv true (s.reg i) s).imp (fun ⟨t, h2⟩ => ⟨t, h.trans (h1.trans h2)⟩) fun h2 => (h2.of_eq h1).of_eq h
    · exact (branch_inv false (s.reg i) s).imp (fun ⟨t, h2⟩ => ⟨t, h.trans (h1.trans h2)⟩) fun h2 => (h2.of_eq h1).of_eq h
    · exact .inr (h1.of_eq h)
  · exact .inr h

theorem execJumpIfNotEqual_inv (a : Byte) (s : State) :
    (∃ t : Byte, execJumpIfNotEqual a s = .next (s.setPc t)) ∨ Faults (execJumpIfNotEqual a s) s := by
  unfold execJumpIfNotEqual
  rcases withOperand_inv a s _ with ⟨i, -, h⟩ | h
  · rcases withFlagEqual_inv s _ with ⟨-, h1⟩ | ⟨-, h1⟩ | h1
    · exact (branch_inv false (s.reg i) s).imp (fun ⟨t, h2⟩ => ⟨t, h.trans (h1.trans h2)⟩) fun h2 => (h2.of_eq h1).of_eq h
    · exact (branch_inv true (s.reg i) s).imp (fun ⟨t, h2⟩ => ⟨t, h.trans (h1.trans h2)⟩) fun h2 => (h2.of_eq h1).of_eq h
    · exact .inr (h1.of_eq h)
  · exact .inr h

theorem execNot_inv (a : Byte) (s : State) :
    (∃ i : RegIndex, a = regByte i ∧ s.pc.toNat + 2 ≤ 255 ∧
      execNot a s = .next ((s.setReg i (aluNot (s.reg i))).setPc (BitVec.ofNat 8 (s.pc.toNat + 2)))) ∨
      Faults (execNot a s) s := by
  unfold execNot
  rcases withOperand_inv a s _ with ⟨i, ha, h⟩ | h
  · rcases withPcPlus_inv 2 s _ with ⟨hp, h'⟩ | h'
    · exact .inl ⟨i, ha, hp, h.trans h'⟩
    · exact .inr (h'.of_eq h)
  · exact .inr h

theorem execLoadImmediate_inv (a imm : Byte) (s : State) :
    (∃ i : RegIndex, a = regByte i ∧ s.pc.toNat + 3 ≤ 255 ∧
      execLoadImmediate a imm s = .next ((s.setReg i imm).setPc (BitVec.ofNat 8 (s.pc.toNat + 3)))) ∨
      Faults (execLoadImmediate a imm s) s := by
  unfold execLoadImmediate
  rcases withIndex_inv a s _ with ⟨i, ha, h⟩ | h
  · rcases withPcPlus_inv 3 s _ with ⟨hp, h'⟩ | h'
    · exact .inl ⟨i, ha, hp, h.trans h'⟩
    · exact .inr (h'.of_eq h)
  · exact .inr h

theorem execCompare_inv (a b : Byte) (s : State) :
    (∃ i j : RegIndex, a = regByte i ∧ b = regByte j ∧ s.pc.toNat + 3 ≤ 255 ∧ execCompare a b s =
      .next ((s.setFlag (compareFlag (s.reg i) (s.reg j))).setPc (BitVec.ofNat 8 (s.pc.toNat + 3)))) ∨
      Faults (execCompare a b s) s := by
  unfold execCompare
  rcases withOperands_inv a b s _ with ⟨i, j, ha, hb, h⟩ | h
  · rcases withPcPlus_inv 3 s _ with ⟨hp, h'⟩ | h'
    · exact .inl ⟨i, j, ha, hb, hp, h.trans h'⟩
    · exact .inr (h'.of_eq h)
  · exact .inr h

/-- The nine two-register ALU instructions. -/
theorem aluTwo_inv (op : AluOp) (a b : Byte) (s : State) :
    (∃ (i j : RegIndex) (v : Byte), a = regByte i ∧ b = regByte j ∧ alu op (s.reg i) (s.reg j) = some v ∧
      s.pc.toNat + 3 ≤ 255 ∧ aluTwo op a b s = .next ((s.setReg i v).setPc (BitVec.ofNat 8 (s.pc.toNat + 3)))) ∨
      Faults (aluTwo op a b s) s := by
  unfold aluTwo
  rcases withOperands_inv a b s fun i j x y =>
      match alu op x y with
      | none => raise .divZero (.number j.val) s
      | some v => withPcPlus 3 s fun pc' => .next ((s.setReg i v).setPc pc')
    with ⟨i, j, ha, hb, h⟩ | h
  · cases hv : alu op (s.reg i) (s.reg j) with
    | none =>
      rw [hv] at h
      exact .inr ⟨_, _, h, j.isLt, (alu_eq_none.1 hv).2⟩
    | some v =>
      rw [hv] at h
      rcases withPcPlus_inv 3 s fun pc' => .next ((s.setReg i v).setPc pc') with ⟨hp, h'⟩ | h'
      · exact .inl ⟨i, j, v, ha, hb, hv, hp, h.trans h'⟩
      · exact .inr (h'.of_eq h)
  · exact .inr h

end Sys2Proof.Machine
end

