-- ==== Sys2Proof/Laws/Fetch.lean ====
section
/-! SUPPORT. What the fetch and decode phases can do, and the step's unfoldings by status. -/

namespace Sys2Proof.Machine

theorem step_running {s : State} (h : s.status = .running) :
    step s = match fetch s with | .run i s1 => exec i s1 | .stop s1 => .next s1 := by
  cases s; cases h; rfl

theorem fetch_unwritten {s : State} (h : s.loadByte s.pc = none) :
    fetch s = .stop (takeFault .uninit (.mem s.pc) s) := by
  simp [fetch, h]

theorem fetch_unknown {s : State} {op : Byte} (h : s.loadByte s.pc = some op)
    (hd : decodeOpcode s.params.notOpcode op = none) : fetch s = .stop (unknownOpcode op (s.setIr op)) := by
  simp [fetch, h, hd]

theorem fetch_pastTop {s : State} {op : Byte} {o : Op} (h : s.loadByte s.pc = some op)
    (hd : decodeOpcode s.params.notOpcode op = some o) (hp : 255 < s.pc.toNat + o.length - 1) :
    fetch s = .stop (takeFault .address (.number 256) (s.setIr op)) := by
  simp [fetch, h, hd, hp, addressPastTop]

theorem fetch_known {s : State} {op : Byte} {o : Op} (h : s.loadByte s.pc = some op)
    (hd : decodeOpcode s.params.notOpcode op = some o) (hp : s.pc.toNat + o.length - 1 ≤ 255) :
    fetch s = fetchOperands o (s.setIr op) := by
  simp [fetch, h, hd, Nat.not_lt.2 hp]

/-- The operand fetch: an instruction of the row, or a fault on an unwritten operand cell. -/
theorem fetchOperands_inv (o : Op) (s : State) :
    (∃ a b : Byte, fetchOperands o s = .run (o.build a b) s) ∨
      ∃ addr : Byte, s.loadByte addr = none ∧ fetchOperands o s = .stop (takeFault .uninit (.mem addr) s) := by
  unfold fetchOperands
  split
  · exact .inl ⟨0, 0, rfl⟩
  · split
    · next h => exact .inr ⟨_, h, rfl⟩
    · next a h => exact .inl ⟨a, 0, rfl⟩
  · split
    · next h => exact .inr ⟨_, h, rfl⟩
    · next a h =>
      split
      · next h' => exact .inr ⟨_, h', rfl⟩
      · next b h' => exact .inl ⟨a, b, rfl⟩

/-- All a fetch can do: C1's fault; a stall; another of C2 to C4's faults, with `ir` loaded; or an instruction of the row the
opcode selects, with `ir` loaded. -/
theorem fetch_inv (s : State) :
    (s.loadByte s.pc = none ∧ fetch s = .stop (takeFault .uninit (.mem s.pc) s)) ∨
    ∃ op : Byte, s.loadByte s.pc = some op ∧
      ((decodeOpcode s.params.notOpcode op = none ∧ s.params.unknownOpcode = .stall ∧ fetch s = .stop (s.setIr op)) ∨
       (∃ (c : Cause) (n : FaultInfo), fetch s = .stop (takeFault c n (s.setIr op)) ∧ FaultGround (s.setIr op) c n) ∨
       ∃ (o : Op) (a b : Byte), decodeOpcode s.params.notOpcode op = some o ∧
         fetch s = .run (o.build a b) (s.setIr op)) := by
  cases h : s.loadByte s.pc with
  | none => exact .inl ⟨rfl, fetch_unwritten h⟩
  | some op =>
    refine .inr ⟨op, rfl, ?_⟩
    cases hd : decodeOpcode s.params.notOpcode op with
    | none =>
      have hf := fetch_unknown h hd
      cases hu : s.params.unknownOpcode with
      | stall => exact .inl ⟨rfl, rfl, by simpa [unknownOpcode, hu] using hf⟩
      | fault =>
        refine .inr (.inl ⟨.decode, .number op.toNat, by simpa [unknownOpcode, hu] using hf, ?_⟩)
        exact ⟨rfl, by simpa using h, by simpa using hd⟩
    | some o =>
      by_cases hp : 255 < s.pc.toNat + o.length - 1
      · exact .inr (.inl ⟨_, _, fetch_pastTop h hd hp, rfl⟩)
      · have hf := fetch_known h hd (Nat.not_lt.1 hp)
        rcases fetchOperands_inv o (s.setIr op) with ⟨a, b, h'⟩ | ⟨addr, hn, h'⟩
        · exact .inr (.inr ⟨o, a, b, rfl, hf.trans h'⟩)
        · exact .inr (.inl ⟨_, _, hf.trans h', State.loadByte_eq_none.1 hn⟩)

/-! ### Runs -/

theorem coreRun_succ_of_step {M : Host.Core} {s t : M.State} (h : M.step s = .next t) (k : Nat) :
    M.run (k + 1) s = M.run k t := by
  simp [Host.Core.run, h]

theorem run_succ_of_step {s t : State} (h : step s = .next t) (k : Nat) :
    Host.Core.run core (k + 1) s = Host.Core.run core k t :=
  coreRun_succ_of_step (M := core) h k

/-- A state that a Step leaves as it is stays so for ever. -/
theorem run_of_step_self {s : State} (h : step s = .next s) (k : Nat) : Host.Core.run core k s = .next s := by
  induction k with
  | zero => rfl
  | succ k ih => rw [run_succ_of_step h, ih]

end Sys2Proof.Machine
end

