-- ==== Sys2Proof/Laws/PerInstr.lean ====
section
/-! SUPPORT. The per-instruction family about encodings: an instruction's length is 1 plus its operand count, and that count
stands in bits 7:6 of its first byte (spec/30_encoding.md R52, R58). -/

/-- The encoding is one to three bytes long, and the top two bits of the first byte say how many follow it. -/
def Sys2Proof.Laws.EncodeLength.Statement (i : Sys2Proof.Instr) : Prop :=
  ∃ (op : Sys2Proof.Byte) (operands : List Sys2Proof.Byte), Sys2Proof.encode i = op :: operands ∧
    op.toNat / 64 = operands.length ∧ operands.length ≤ 2

theorem Sys2Proof.Laws.EncodeLength.halt : Sys2Proof.Laws.EncodeLength.Statement .halt :=
  ⟨_, [], rfl, rfl, by decide⟩

theorem Sys2Proof.Laws.EncodeLength.ret : Sys2Proof.Laws.EncodeLength.Statement .ret :=
  ⟨_, [], rfl, rfl, by decide⟩

theorem Sys2Proof.Laws.EncodeLength.push (a : Sys2Proof.Byte) : Sys2Proof.Laws.EncodeLength.Statement (.push a) :=
  ⟨_, [a], rfl, by simp, by simp⟩

theorem Sys2Proof.Laws.EncodeLength.pop (a : Sys2Proof.Byte) : Sys2Proof.Laws.EncodeLength.Statement (.pop a) :=
  ⟨_, [a], rfl, by simp, by simp⟩

theorem Sys2Proof.Laws.EncodeLength.printReg (a : Sys2Proof.Byte) : Sys2Proof.Laws.EncodeLength.Statement (.printReg a) :=
  ⟨_, [a], rfl, by simp, by simp⟩

theorem Sys2Proof.Laws.EncodeLength.call (a : Sys2Proof.Byte) : Sys2Proof.Laws.EncodeLength.Statement (.call a) :=
  ⟨_, [a], rfl, by simp, by simp⟩

theorem Sys2Proof.Laws.EncodeLength.jump (a : Sys2Proof.Byte) : Sys2Proof.Laws.EncodeLength.Statement (.jump a) :=
  ⟨_, [a], rfl, by simp, by simp⟩

theorem Sys2Proof.Laws.EncodeLength.jumpIfEqual (a : Sys2Proof.Byte) : Sys2Proof.Laws.EncodeLength.Statement (.jumpIfEqual a) :=
  ⟨_, [a], rfl, by simp, by simp⟩

theorem Sys2Proof.Laws.EncodeLength.jumpIfNotEqual (a : Sys2Proof.Byte) : Sys2Proof.Laws.EncodeLength.Statement (.jumpIfNotEqual a) :=
  ⟨_, [a], rfl, by simp, by simp⟩

theorem Sys2Proof.Laws.EncodeLength.not (a : Sys2Proof.Byte) : Sys2Proof.Laws.EncodeLength.Statement (.not a) :=
  ⟨_, [a], rfl, by simp, by simp⟩

theorem Sys2Proof.Laws.EncodeLength.loadImmediate (a imm : Sys2Proof.Byte) : Sys2Proof.Laws.EncodeLength.Statement (.loadImmediate a imm) :=
  ⟨_, [a, imm], rfl, by simp, by simp⟩

theorem Sys2Proof.Laws.EncodeLength.add (a b : Sys2Proof.Byte) : Sys2Proof.Laws.EncodeLength.Statement (.add a b) :=
  ⟨_, [a, b], rfl, by simp, by simp⟩

theorem Sys2Proof.Laws.EncodeLength.sub (a b : Sys2Proof.Byte) : Sys2Proof.Laws.EncodeLength.Statement (.sub a b) :=
  ⟨_, [a, b], rfl, by simp, by simp⟩

theorem Sys2Proof.Laws.EncodeLength.mul (a b : Sys2Proof.Byte) : Sys2Proof.Laws.EncodeLength.Statement (.mul a b) :=
  ⟨_, [a, b], rfl, by simp, by simp⟩

theorem Sys2Proof.Laws.EncodeLength.div (a b : Sys2Proof.Byte) : Sys2Proof.Laws.EncodeLength.Statement (.div a b) :=
  ⟨_, [a, b], rfl, by simp, by simp⟩

theorem Sys2Proof.Laws.EncodeLength.compare (a b : Sys2Proof.Byte) : Sys2Proof.Laws.EncodeLength.Statement (.compare a b) :=
  ⟨_, [a, b], rfl, by simp, by simp⟩

theorem Sys2Proof.Laws.EncodeLength.and (a b : Sys2Proof.Byte) : Sys2Proof.Laws.EncodeLength.Statement (.and a b) :=
  ⟨_, [a, b], rfl, by simp, by simp⟩

theorem Sys2Proof.Laws.EncodeLength.or (a b : Sys2Proof.Byte) : Sys2Proof.Laws.EncodeLength.Statement (.or a b) :=
  ⟨_, [a, b], rfl, by simp, by simp⟩

theorem Sys2Proof.Laws.EncodeLength.xor (a b : Sys2Proof.Byte) : Sys2Proof.Laws.EncodeLength.Statement (.xor a b) :=
  ⟨_, [a, b], rfl, by simp, by simp⟩

theorem Sys2Proof.Laws.EncodeLength.shl (a b : Sys2Proof.Byte) : Sys2Proof.Laws.EncodeLength.Statement (.shl a b) :=
  ⟨_, [a, b], rfl, by simp, by simp⟩

theorem Sys2Proof.Laws.EncodeLength.shr (a b : Sys2Proof.Byte) : Sys2Proof.Laws.EncodeLength.Statement (.shr a b) :=
  ⟨_, [a, b], rfl, by simp, by simp⟩
end

