-- ==== Sys2Proof/Laws/Relation.lean ====
section
/-! SUPPORT. Two runs side by side: where two states agree on what a check reads, the check goes the same way in both. Rules of the
form "nothing reads this" start from these. -/

namespace Sys2Proof.Machine

/-- Both outcomes are next states, related by `Q`. -/
def Both (Q : State → State → Prop) (r r' : Result) : Prop := ∃ t u : State, r = .next t ∧ r' = .next u ∧ Q t u

/-- `Q` relates the faults taken at two states. -/
def FaultsBoth (Q : State → State → Prop) (s s' : State) : Prop :=
  ∀ (c : Cause) (n : FaultInfo), Q (takeFault c n s) (takeFault c n s')

variable {Q : State → State → Prop} {s s' : State}

theorem both_next {t u : State} (h : Q t u) : Both Q (.next t) (.next u) := ⟨t, u, rfl, rfl, h⟩

theorem both_raise (h : FaultsBoth Q s s') (c : Cause) (n : FaultInfo) : Both Q (raise c n s) (raise c n s') :=
  both_next (h c n)

theorem withIndex_both (hf : FaultsBoth Q s s') (b : Byte) {k k' : RegIndex → Result}
    (hk : ∀ i : RegIndex, b = regByte i → Both Q (k i) (k' i)) : Both Q (withIndex b s k) (withIndex b s' k') := by
  rcases regIndex?_cases b with ⟨i, hb, -, h⟩ | ⟨-, h⟩
  · simpa [withIndex, h] using hk i hb
  · simpa [withIndex, h] using both_raise hf _ _

theorem withReg_both (hf : FaultsBoth Q s s') {i : RegIndex} (hr : s'.readReg i = s.readReg i) {k k' : Byte → Result}
    (hk : Both Q (k (s.reg i)) (k' (s.reg i))) : Both Q (withReg i s k) (withReg i s' k') := by
  rcases s.readReg_eq i with h | ⟨h, -⟩
  · simpa [withReg, hr, h] using hk
  · simpa [withReg, hr, h] using both_raise hf _ _

theorem withStackByte_both (hf : FaultsBoth Q s s') (hr : s'.reg 7 = s.reg 7)
    (hl : s'.loadByte (s.reg 7) = s.loadByte (s.reg 7)) {k k' : Byte → Result} (hk : ∀ v : Byte, Both Q (k v) (k' v)) :
    Both Q (withStackByte s k) (withStackByte s' k') := by
  cases h : s.loadByte (s.reg 7) with
  | some v => simpa [withStackByte, State.sp_eq, hr, hl, h] using hk v
  | none => simpa [withStackByte, State.sp_eq, hr, hl, h] using both_raise hf _ _

theorem withPcPlus_both (hf : FaultsBoth Q s s') (hp : s'.pc = s.pc) (n : Nat) {k k' : Byte → Result}
    (hk : ∀ v : Byte, Both Q (k v) (k' v)) : Both Q (withPcPlus n s k) (withPcPlus n s' k') := by
  unfold withPcPlus
  rw [hp]
  split
  · exact hk _
  · exact both_raise hf _ _

theorem withFlagEqual_both (hf : FaultsBoth Q s s') (he : s'.flag = s.flag) {k k' : Bool → Result}
    (hk : ∀ b : Bool, Both Q (k b) (k' b)) : Both Q (withFlagEqual s k) (withFlagEqual s' k') := by
  unfold withFlagEqual
  rw [he]
  cases s.flag
  · exact both_raise hf _ _
  all_goals exact hk _

theorem withOperand_both (hf : FaultsBoth Q s s') (a : Byte)
    (hr : ∀ i : RegIndex, a = regByte i → s'.readReg i = s.readReg i) {k k' : RegIndex → Byte → Result}
    (hk : ∀ i : RegIndex, a = regByte i → Both Q (k i (s.reg i)) (k' i (s.reg i))) :
    Both Q (withOperand a s k) (withOperand a s' k') :=
  withIndex_both hf a fun i hi => withReg_both hf (hr i hi) (hk i hi)

theorem withOperands_both (hf : FaultsBoth Q s s') (a b : Byte)
    (hr : ∀ i : RegIndex, a = regByte i ∨ b = regByte i → s'.readReg i = s.readReg i)
    {k k' : RegIndex → RegIndex → Byte → Byte → Result}
    (hk : ∀ i j : RegIndex, a = regByte i → Both Q (k i j (s.reg i) (s.reg j)) (k' i j (s.reg i) (s.reg j))) :
    Both Q (withOperands a b s k) (withOperands a b s' k') :=
  withIndex_both hf a fun i hi => withIndex_both hf b fun j hj =>
    withReg_both hf (hr i (.inl hi)) (withReg_both hf (hr j (.inr hj)) (hk i j hi))

theorem branch_both (hf : FaultsBoth Q s s') (hp : s'.pc = s.pc) (taken : Bool) (x : Byte)
    (hk : ∀ v : Byte, Q (s.setPc v) (s'.setPc v)) : Both Q (branch taken x s) (branch taken x s') := by
  cases taken
  · exact withPcPlus_both hf hp 2 fun v => both_next (hk v)
  · exact both_next (hk x)

theorem aluTwo_both (hf : FaultsBoth Q s s') (hp : s'.pc = s.pc) (op : AluOp) (a b : Byte)
    (hr : ∀ i : RegIndex, a = regByte i ∨ b = regByte i → s'.readReg i = s.readReg i)
    (hk : ∀ (i : RegIndex) (v p : Byte), a = regByte i → Q ((s.setReg i v).setPc p) ((s'.setReg i v).setPc p)) :
    Both Q (aluTwo op a b s) (aluTwo op a b s') := by
  refine withOperands_both hf a b hr fun i j hi => ?_
  cases alu op (s.reg i) (s.reg j)
  · exact both_raise hf _ _
  · exact withPcPlus_both hf hp 3 fun p => both_next (hk i _ p hi)

end Sys2Proof.Machine
end

