-- ==== Sys2Proof/Tests/Slice0.lean ====
section
/-! SUPPORT. Tests: the form checks, decoding of bytes written out from spec/30_encoding.md R57, the examples and corner cases the
rules of spec/41 to spec/43 give (one Step each), and a witness for the hypotheses of every statement. -/

namespace Sys2Proof.Tests

open Sys2Proof.Machine Sys2Proof.Claims

/-! ### Well-formedness: each check refuses an ill-formed term -/

theorem test_wellFormed_refuses_one_operand :
    [Instr.push 8, .pop 8, .printReg 8, .call 9, .jump 16, .jumpIfEqual 255, .jumpIfNotEqual 128, .not 8].all
      (fun i => !i.wellFormed) = true := by decide

theorem test_wellFormed_refuses_operand_a :
    [Instr.loadImmediate 8 0, .add 8 0, .sub 8 0, .mul 8 0, .div 8 0, .compare 8 0, .and 8 0, .or 8 0, .xor 8 0, .shl 8 0,
      .shr 8 0].all (fun i => !i.wellFormed) = true := by decide

theorem test_wellFormed_refuses_operand_b :
    [Instr.add 0 8, .sub 0 8, .mul 0 8, .div 0 8, .compare 0 8, .and 0 8, .or 0 8, .xor 0 8, .shl 0 8, .shr 0 8].all
      (fun i => !i.wellFormed) = true := by decide

theorem test_wellFormed_admits :
    [Instr.halt, .ret, .push 7, .loadImmediate 7 255, .add 7 0, .not 7].all Instr.wellFormed = true := by decide

/-! ### Decoding: the bit strings of R57's "binary" column, the operands as in R53 -/

theorem test_decode_controller_and_registers :
    decode .x69 [0b00000001] = .ok .halt [] ∧ decode .x69 [0b01000101, 3] = .ok (.push 3) [] ∧
    decode .x69 [0b01000110, 4] = .ok (.pop 4) [] ∧ decode .x69 [0b01000111, 5] = .ok (.printReg 5) [] ∧
    decode .x69 [0b10000010, 1, 200] = .ok (.loadImmediate 1 200) [] := by decide

theorem test_decode_control_transfer :
    decode .x69 [0b00010001] = .ok .ret [] ∧ decode .x69 [0b01010000, 1] = .ok (.call 1) [] ∧
    decode .x69 [0b01010100, 2] = .ok (.jump 2) [] ∧ decode .x69 [0b01010101, 3] = .ok (.jumpIfEqual 3) [] ∧
    decode .x69 [0b01010110, 4] = .ok (.jumpIfNotEqual 4) [] ∧
    decode .x69 [0b10100111, 5, 6] = .ok (.compare 5 6) [] := by decide

theorem test_decode_alu :
    decode .x69 [0b10100000, 0, 1] = .ok (.add 0 1) [] ∧ decode .x69 [0b10100001, 1, 2] = .ok (.sub 1 2) [] ∧
    decode .x69 [0b10100010, 2, 3] = .ok (.mul 2 3) [] ∧ decode .x69 [0b10100011, 3, 4] = .ok (.div 3 4) [] ∧
    decode .x69 [0b10101000, 4, 5] = .ok (.and 4 5) [] ∧ decode .x69 [0b10101010, 5, 6] = .ok (.or 5 6) [] ∧
    decode .x69 [0b10101011, 6, 7] = .ok (.xor 6 7) [] ∧ decode .x69 [0b10101100, 7, 0] = .ok (.shl 7 0) [] ∧
    decode .x69 [0b10101101, 0, 7] = .ok (.shr 0 7) [] ∧ decode .x69 [0b01101001, 1] = .ok (.not 1) [] := by decide

/-- R60, R61: NOT has no byte under NOT_OPCODE = `none`; a short list is refused by its own name. -/
theorem test_decode_refuses :
    decode .absent [0x69, 1] = .unknownOpcode 0x69 ∧ decode .x69 [0x00] = .unknownOpcode 0 ∧
    decode .x69 [0xA9, 0, 0] = .unknownOpcode 0xA9 ∧ decode .x69 [0xA0, 1] = .truncated ∧ decode .x69 [] = .truncated := by
  decide

/-! ### One Step of each instruction -/

/-- A running machine with every register written: R0 to R6 as given, R7 as the stack pointer given. -/
def running (pc : Byte) (flag : Flag) (x : Vector Byte 8) (mem : Memory) : State :=
  { State.reset with
    regs := x, written := #v[true, true, true, true, true, true, true], pc := pc, flag := flag, status := .running, mem := mem }

/-- The fields of the next state that `f` reads. -/
def after {α : Type} (r : Result) (f : State → α) : Option α :=
  match r with
  | .next t => some (f t)
  | .fault _ => none
  | .refused _ => none

/-- Status and fault record. -/
def verdict (t : State) : Status × FaultRecord := (t.status, t.faultRecord)

def regs0 : Vector Byte 8 := #v[5, 0x20, 0x13, 0, 0x30, 0x0F, 200, 0xF4]

/-- R79: HALT at address 255 halts with pc = 255. -/
theorem test_halt : after (step (running 255 .unset regs0 [(255, 0x01)])) (fun t => (t.status, t.pc)) = some (.halted, 255) := by
  decide

/-- R80's example. -/
theorem test_loadImmediate : after (step (running 0 .unset regs0 [(0, 0x82), (1, 0), (2, 8)])) (fun t => (t.reg 0, t.pc)) =
    some (8, 3) := by decide

/-- R80: pc = 253 raises ADDRESS. -/
theorem test_loadImmediate_top : after (step (running 253 .unset regs0 [(253, 0x82), (254, 0), (255, 8)])) verdict =
    some (.faulted, { cause := .address, pc := 253, info := .number 256 }) := by decide

/-- R81's example. -/
theorem test_printReg : after (step (running 0 .unset #v[17, 0, 0, 0, 0, 0, 0, 0xF4] [(0, 0x47), (1, 0)])) (·.output) = some [17] := by
  decide

/-- R82's example. -/
theorem test_push : after (step (running 0 .unset regs0 [(0, 0x45), (1, 0)])) (fun t => (t.readByte 0xF3, t.reg 7, t.pc)) =
    some (some 5, 0xF3, 2) := by decide

/-- R82: PUSH r7 with SP = 0xF4 writes 0xF3 at address 0xF3. -/
theorem test_push_r7 : after (step (running 0 .unset regs0 [(0, 0x45), (1, 7)])) (·.readByte 0xF3) = some (some 0xF3) := by decide

/-- R83's example: the second of two pushed bytes comes back first. -/
theorem test_pop : after (step (running 0 .unset #v[5, 6, 0, 0, 0, 0, 0, 0xF2] [(0, 0x46), (1, 2), (0xF2, 6), (0xF3, 5)]))
    (fun t => (t.reg 2, t.reg 7)) = some (6, 0xF3) := by decide

/-- R83: POP r7 leaves the popped byte plus 1, here across the wrap. -/
theorem test_pop_r7 : after (step (running 0 .unset regs0 [(0, 0x46), (1, 7), (0xF4, 255)])) (·.reg 7) = some 0 := by decide

/-- R87's example. -/
theorem test_call : after (step (running 0x0A .unset regs0 [(0x0A, 0x50), (0x0B, 1)]))
    (fun t => (t.readByte 0xF3, t.reg 7, t.pc)) = some (some 0x0C, 0xF3, 0x20) := by decide

/-- R87: CALL r7 goes to the decremented stack pointer. -/
theorem test_call_r7 : after (step (running 0x0A .unset regs0 [(0x0A, 0x50), (0x0B, 7)])) (·.pc) = some 0xF3 := by decide

/-- R88's example. -/
theorem test_ret : after (step (running 0x20 .unset #v[0, 0, 0, 0, 0, 0, 0, 0xF3] [(0x20, 0x11), (0xF3, 0x0C)]))
    (fun t => (t.pc, t.reg 7)) = some (0x0C, 0xF4) := by decide

/-- R88: the cell at SP was never written. -/
theorem test_ret_unwritten : after (step (running 0x20 .unset regs0 [(0x20, 0x11)])) verdict =
    some (.faulted, { cause := .uninit, pc := 0x20, info := .mem 0xF4 }) := by decide

/-- R89: the comparison is unsigned. -/
theorem test_compare_unsigned : after (step (running 0 .unset #v[0x80, 0x7F, 0, 0, 0, 0, 0, 0] [(0, 0xA7), (1, 0), (2, 1)])) (·.flag) =
    some .greater := by decide

/-- R89's example. -/
theorem test_compare_less : after (step (running 0 .equal #v[3, 9, 0, 0, 0, 0, 0, 0] [(0, 0xA7), (1, 0), (2, 1)])) (·.flag) =
    some .less := by decide

/-- R90: taken, at pc = 254. -/
theorem test_jumpIfEqual_taken : after (step (running 254 .equal regs0 [(254, 0x55), (255, 2)])) (·.pc) = some 0x13 := by decide

/-- R90: not taken. -/
theorem test_jumpIfEqual_falls : after (step (running 10 .less regs0 [(10, 0x55), (11, 2)])) (·.pc) = some 12 := by decide

/-- R91's example. -/
theorem test_jumpIfNotEqual_taken : after (step (running 10 .greater regs0 [(10, 0x56), (11, 3)])) (·.pc) = some 0 := by decide

/-- R91: UNSET is not "not equal". -/
theorem test_jumpIfNotEqual_unset : after (step (running 10 .unset regs0 [(10, 0x56), (11, 3)])) verdict =
    some (.faulted, { cause := .uninit, pc := 10, info := .flag }) := by decide

/-- R92's example. -/
theorem test_jump : after (step (running 10 .unset regs0 [(10, 0x54), (11, 4)])) (·.pc) = some 0x30 := by decide

/-- R96: 200 + 100 = 44. -/
theorem test_add_wraps : after (step (running 0 .unset #v[200, 100, 0, 0, 0, 0, 0, 0] [(0, 0xA0), (1, 0), (2, 1)]))
    (fun t => (t.reg 0, t.reg 1)) = some (44, 100) := by decide

/-- R97: 5 − 9 = 252. -/
theorem test_sub_wraps : after (step (running 0 .unset #v[5, 9, 0, 0, 0, 0, 0, 0] [(0, 0xA1), (1, 0), (2, 1)])) (·.reg 0) = some 252 := by
  decide

/-- R98: 255 × 255 = 1, the register squared in place. -/
theorem test_mul_squares : after (step (running 0 .unset #v[0, 255, 0, 0, 0, 0, 0, 0] [(0, 0xA2), (1, 1), (2, 1)])) (·.reg 1) = some 1 := by
  decide

/-- R99: 7 // 2 = 3. -/
theorem test_div : after (step (running 0 .unset #v[7, 2, 0, 0, 0, 0, 0, 0] [(0, 0xA3), (1, 0), (2, 1)])) (·.reg 0) = some 3 := by decide

/-- R99, R70: division by zero comes before the successor's check, and keeps x[a]. -/
theorem test_div_zero : after (step (running 253 .unset #v[7, 0, 0, 0, 0, 0, 0, 0] [(253, 0xA3), (254, 0), (255, 1)]))
    (fun t => (verdict t, t.reg 0)) = some ((.faulted, { cause := .divZero, pc := 253, info := .number 1 }), 7) := by decide

/-- R100's example. -/
theorem test_and : after (step (running 0 .unset #v[0xCC, 0xAA, 0, 0, 0, 0, 0, 0] [(0, 0xA8), (1, 0), (2, 1)])) (·.reg 0) = some 0x88 := by
  decide

/-- R101's example. -/
theorem test_or : after (step (running 0 .unset #v[0xCC, 0xAA, 0, 0, 0, 0, 0, 0] [(0, 0xAA), (1, 0), (2, 1)])) (·.reg 0) = some 0xEE := by
  decide

/-- R102's example. -/
theorem test_xor : after (step (running 0 .unset #v[0xCC, 0xAA, 0, 0, 0, 0, 0, 0] [(0, 0xAB), (1, 0), (2, 1)])) (·.reg 0) = some 0x66 := by
  decide

/-- R103's example. -/
theorem test_not : after (step (running 0 .unset regs0 [(0, 0x69), (1, 5)])) (fun t => (t.reg 5, t.pc)) = some (0xF0, 2) := by decide

/-- R104's example. -/
theorem test_shl : after (step (running 0 .unset #v[0x81, 1, 0, 0, 0, 0, 0, 0] [(0, 0xAC), (1, 0), (2, 1)])) (·.reg 0) = some 0x02 := by
  decide

/-- R104: 3 << 3 = 24, the register shifted by itself. -/
theorem test_shl_self : after (step (running 0 .unset #v[0, 3, 0, 0, 0, 0, 0, 0] [(0, 0xAC), (1, 1), (2, 1)])) (·.reg 1) = some 24 := by
  decide

/-- R105's example. -/
theorem test_shr : after (step (running 0 .unset #v[0x81, 1, 0, 0, 0, 0, 0, 0] [(0, 0xAD), (1, 0), (2, 1)])) (·.reg 0) = some 0x40 := by
  decide

/-- R105, R93: the amount is not masked to three bits. -/
theorem test_shr_by_eight : after (step (running 0 .unset #v[0xFF, 8, 0, 0, 0, 0, 0, 0] [(0, 0xAD), (1, 0), (2, 1)])) (·.reg 0) = some 0 := by
  decide

/-- R70, C5 before C6: with operand b out of range, an unwritten register a is not looked at. -/
theorem test_checks_in_order : after (step { State.reset with status := .running, mem := [(0, 0xA0), (1, 0), (2, 8)] }) verdict =
    some (.faulted, { cause := .regIndex, pc := 0, info := .number 8 }) := by decide

/-- The next Step fetches what `withFetchWord` has placed. -/
theorem test_withFetchWord : after (step (State.reset.withFetchWord 24 0x080082)) (fun t => (t.reg 0, t.pc, t.ir)) = some (8, 3, 0x82) := by
  decide

/-! ### Witnesses of the statements' hypotheses, at the boundaries of each clause -/

/-- A machine with every register written, at `pc`. -/
def atPc (pc : Byte) : State := running pc .unset regs0 []

/-- The machine under UNINIT_POLICY = ZERO, with nothing written. -/
def zeroed (pc : Byte) : State := { State.resetWith { Params.standard with uninit := .zero } with status := .running, pc := pc }

/-- The hypotheses of a two-register instruction's statement. -/
def TwoOperandWitness : Prop :=
  (Readable (atPc 252) 0 ∧ Readable (atPc 252) 7 ∧ (atPc 252).pc.toNat + 3 ≤ 255) ∧
  (Readable (zeroed 0) 6 ∧ Readable (zeroed 0) 0 ∧ (zeroed 0).pc.toNat + 3 ≤ 255) ∧
  8 ≤ (8 : Byte).toNat ∧ 8 ≤ (255 : Byte).toNat ∧
  ¬ Readable State.reset 0 ∧ ¬ Readable State.reset 6 ∧ (Readable State.reset 7 ∧ ¬ Readable State.reset 6) ∧
  (Readable (atPc 253) 0 ∧ Readable (atPc 253) 1 ∧ 255 < (atPc 253).pc.toNat + 3)

theorem test_twoOperandWitness : TwoOperandWitness := by unfold TwoOperandWitness; decide

theorem test_witness_AddWritesSumModulo256 : TwoOperandWitness := test_twoOperandWitness
theorem test_witness_SubWritesDifferenceModulo256 : TwoOperandWitness := test_twoOperandWitness
theorem test_witness_MulWritesLowByteOfProduct : TwoOperandWitness := test_twoOperandWitness
theorem test_witness_AndWritesBitwiseAnd : TwoOperandWitness := test_twoOperandWitness
theorem test_witness_OrWritesBitwiseOr : TwoOperandWitness := test_twoOperandWitness
theorem test_witness_XorWritesBitwiseXor : TwoOperandWitness := test_twoOperandWitness
theorem test_witness_ShlWritesShiftedLeft : TwoOperandWitness := test_twoOperandWitness
theorem test_witness_ShrWritesShiftedRight : TwoOperandWitness := test_twoOperandWitness
theorem test_witness_CompareSetsFlag : TwoOperandWitness := test_twoOperandWitness

theorem test_witness_DivWritesQuotientOrFaults : TwoOperandWitness ∧
    ((atPc 252).reg 1 ≠ 0 ∧ (atPc 252).pc.toNat + 3 ≤ 255) ∧ (atPc 255).reg 3 = 0 ∧
    ((atPc 253).reg 1 ≠ 0 ∧ 255 < (atPc 253).pc.toNat + 3) := ⟨test_twoOperandWitness, by decide⟩

/-- The hypotheses of the statement of an instruction that reads its one register operand. -/
def OneOperandWitness : Prop :=
  (Readable (atPc 253) 0 ∧ Readable (atPc 253) 7 ∧ (atPc 253).pc.toNat + 2 ≤ 255) ∧
  (Readable (zeroed 0) 6 ∧ (zeroed 0).pc.toNat + 2 ≤ 255) ∧ 8 ≤ (8 : Byte).toNat ∧ 8 ≤ (255 : Byte).toNat ∧
  ¬ Readable State.reset 0 ∧ ¬ Readable State.reset 6 ∧ (Readable (atPc 254) 0 ∧ 255 < (atPc 254).pc.toNat + 2)

theorem test_oneOperandWitness : OneOperandWitness := by unfold OneOperandWitness; decide

theorem test_witness_NotWritesComplement : OneOperandWitness := test_oneOperandWitness
theorem test_witness_PrintRegEmitsRegister : OneOperandWitness := test_oneOperandWitness
theorem test_witness_PushStoresBelowStackPointer : OneOperandWitness := test_oneOperandWitness
theorem test_witness_CallPushesReturnAddress : OneOperandWitness := test_oneOperandWitness
theorem test_witness_JumpGoesToRegister : OneOperandWitness := test_oneOperandWitness

theorem test_witness_JumpIfEqualBranches : OneOperandWitness ∧
    (Readable (running 255 .equal regs0 []) 7 ∧ (running 255 .equal regs0 []).flag = .equal) ∧
    ((running 253 .less regs0 []).flag = .less ∧ (running 253 .less regs0 []).pc.toNat + 2 ≤ 255) ∧
    (Readable (atPc 0) 2 ∧ (atPc 0).flag = .unset) ∧
    ((running 254 .greater regs0 []).flag = .greater ∧ 255 < (running 254 .greater regs0 []).pc.toNat + 2) :=
  ⟨test_oneOperandWitness, by decide⟩

theorem test_witness_JumpIfNotEqualBranches : OneOperandWitness ∧
    (Readable (running 255 .less regs0 []) 7 ∧ (running 255 .less regs0 []).flag = .less) ∧
    ((running 253 .equal regs0 []).flag = .equal ∧ (running 253 .equal regs0 []).pc.toNat + 2 ≤ 255) ∧
    (Readable (atPc 0) 2 ∧ (atPc 0).flag = .unset) ∧
    ((running 254 .equal regs0 []).flag = .equal ∧ 255 < (running 254 .equal regs0 []).pc.toNat + 2) :=
  ⟨test_oneOperandWitness, by decide⟩

theorem test_witness_AddThenSubRestores :
    (0 : RegIndex) ≠ 7 ∧ Readable (atPc 249) 0 ∧ Readable (atPc 249) 7 ∧ (atPc 249).pc.toNat + 6 ≤ 255 := by decide

theorem test_witness_LoadImmediateStoresImmediate :
    (atPc 252).pc.toNat + 3 ≤ 255 ∧ 8 ≤ (8 : Byte).toNat ∧ 255 < (atPc 253).pc.toNat + 3 := by decide

theorem test_witness_PopLoadsFromStackPointer :
    ((running 253 .unset regs0 [(0xF4, 9)]).loadByte ((running 253 .unset regs0 [(0xF4, 9)]).reg 7) = some 9 ∧
      (running 253 .unset regs0 [(0xF4, 9)]).pc.toNat + 2 ≤ 255) ∧
    8 ≤ (8 : Byte).toNat ∧ (atPc 0).loadByte ((atPc 0).reg 7) = none ∧ (zeroed 0).loadByte ((zeroed 0).reg 7) = some 0 ∧
    ((running 254 .unset regs0 [(0xF4, 9)]).loadByte ((running 254 .unset regs0 [(0xF4, 9)]).reg 7) = some 9 ∧
      255 < (running 254 .unset regs0 [(0xF4, 9)]).pc.toNat + 2) ∧
    (Readable (atPc 251) 7 ∧ (atPc 251).pc.toNat + 4 ≤ 255) := by decide

theorem test_witness_ReturnPopsProgramCounter :
    (running 255 .unset regs0 [(0xF4, 9)]).loadByte ((running 255 .unset regs0 [(0xF4, 9)]).reg 7) = some 9 ∧
    (atPc 255).loadByte ((atPc 255).reg 7) = none := by decide

theorem test_witness_CallThenReturnResumes : ∃ t w : State, exec (.call (regByte 1)) (atPc 253) = .next t ∧ t.status ≠ .faulted ∧
    w.reg 7 = t.reg 7 ∧ w.readByte (t.reg 7) = t.readByte (t.reg 7) := by
  refine ⟨_, _, rfl, ?_, rfl, rfl⟩
  decide

theorem test_witness_HaltStopsInPlace :
    ((running 255 .unset regs0 [(255, 1)]).status = .running ∧
      (running 255 .unset regs0 [(255, 1)]).loadByte (running 255 .unset regs0 [(255, 1)]).pc = some 0x01) ∧
    ((atPc 255).status = .running ∧ (atPc 255).loadByte (atPc 255).pc = none) := by decide

theorem test_witness_DecodeOfEncode :
    (NotOpcode.x69 = .x69 ∨ ∀ a : Byte, Instr.not 255 ≠ .not a) ∧ (NotOpcode.absent = .x69 ∨ ∀ a : Byte, Instr.halt ≠ .not a) :=
  ⟨.inl rfl, .inr fun _ h => Instr.noConfusion h⟩

theorem test_witness_EncodeOfDecode :
    decode .x69 [0x82, 0, 8, 1] = .ok (.loadImmediate 0 8) [1] ∧ decode .absent [0x01] = .ok .halt [] := by decide

/-- A running machine whose opcode byte is `op`, under the parameters given. -/
def opcodeUnder (p : Params) (op : Byte) : State := { running 0 .unset regs0 [(0, op)] with params := p }

/-- The reference's parameters: no NOT, and STALL. -/
def reference : Params := { notOpcode := .absent, unknownOpcode := .stall, uninit := .fault }

/-- An unknown opcode at the pc, under each policy. -/
def UnknownOpcodeWitness : Prop :=
  ((opcodeUnder .standard 0).status = .running ∧ (opcodeUnder .standard 0).loadByte 0 = some 0 ∧
    decodeOpcode (opcodeUnder .standard 0).params.notOpcode 0 = none ∧
    (opcodeUnder .standard 0).params.unknownOpcode = .fault) ∧
  ((opcodeUnder reference 0x69).status = .running ∧ (opcodeUnder reference 0x69).loadByte 0 = some 0x69 ∧
    decodeOpcode (opcodeUnder reference 0x69).params.notOpcode 0x69 = none ∧
    (opcodeUnder reference 0x69).params.unknownOpcode = .stall)

theorem test_unknownOpcodeWitness : UnknownOpcodeWitness := by unfold UnknownOpcodeWitness; decide

theorem test_witness_UnknownOpcodesRaiseDecode : UnknownOpcodeWitness := test_unknownOpcodeWitness
theorem test_witness_UnknownOpcodeStallsForever : UnknownOpcodeWitness := test_unknownOpcodeWitness

/-- A three-byte instruction whose last byte lies at address 255. -/
theorem test_witness_StepRunsDecodedInstruction :
    let s : State := running 253 .unset regs0 [(253, 0xA3), (254, 0), (255, 3)]
    s.status = .running ∧ decode s.params.notOpcode [0xA3, 0, 3] = .ok (.div 0 3) [] ∧ s.pc.toNat + 2 ≤ 255 ∧
      ∀ (k : Nat) (h : k < ([0xA3, 0, 3] : List Byte).length),
        s.loadByte (BitVec.ofNat 8 (s.pc.toNat + k)) = some ([0xA3, 0, 3] : List Byte)[k] := by
  refine ⟨rfl, by decide, by decide, ?_⟩
  decide

theorem test_witness_StepOutsideRunningDoesNothing :
    State.reset.status ≠ .running ∧ (State.reset.setStatus .halted).status ≠ .running ∧
    (State.reset.setStatus .faulted).status ≠ .running := by decide

theorem test_witness_ExecTakesFirstFailingCheck :
    execFault (.div 1 3) (atPc 253) = some (.divZero, .number 3) ∧
    (execFault (.div 0 1) (atPc 252) = none ∧ (atPc 252).status = .running) := by decide

theorem test_witness_StepTakesFirstFailingCheck :
    ((atPc 255).status = .running ∧ (atPc 255).params.unknownOpcode = .fault ∧ stepFault (atPc 255) = some (.uninit, .mem 255)) ∧
    stepFault (running 254 .unset regs0 [(254, 0xA0), (255, 0)]) = some (.address, .number 256) ∧
    stepFault (running 253 .unset regs0 [(253, 0xA0), (254, 0)]) = some (.uninit, .mem 255) ∧
    stepFault (running 252 .unset regs0 [(252, 0xA0), (253, 0), (254, 1)]) = none := by decide

theorem test_witness_FaultsArePrecise : ∃ t : State, (atPc 255).status = .running ∧ step (atPc 255) = .next t ∧ t.status = .faulted := by
  refine ⟨_, rfl, rfl, ?_⟩
  decide

/-- PUSH r0 at 0xF1 with SP = 0xF4 stores x[0] = 1, a HALT, at 0xF3, where the pc then is. -/
def pusher : State := running 0xF1 .unset #v[1, 0, 0, 0, 0, 0, 0, 0xF4] []

theorem test_witness_NextFetchSeesPushedByte : ∃ t u : State, pusher.status = .running ∧
    exec (.push (regByte 0)) pusher = .next t ∧ t.status = .running ∧ t.pc = pusher.pushAddr ∧ step t = .next u := by
  refine ⟨_, _, rfl, rfl, ?_, ?_, rfl⟩ <;> decide

/-- JUMP_IF_EQUAL before any COMPARE, under ZERO. -/
theorem test_witness_ZeroPolicyFaultsOnlyOnFlag : ∃ t : State,
    ({ zeroed 0 with mem := [(0, 0x55)] } : State).status = .running ∧ (zeroed 0).params.uninit = .zero ∧
    step { zeroed 0 with mem := [(0, 0x55)] } = .next t ∧ t.status = .faulted ∧ t.faultRecord.cause = .uninit := by
  refine ⟨_, rfl, rfl, rfl, ?_, ?_⟩ <;> decide

theorem test_witness_OnlyTabledRegistersAreWritten : ∃ t : State, exec (.add 0 7) (atPc 0) = .next t := ⟨_, rfl⟩

theorem test_witness_OnlyTabledRegistersAreRead :
    (7 : RegIndex) ∉ regsRead (.add 0 1) ∧ (0 : RegIndex) ∉ regsRead (.pop 0) ∧ (7 : RegIndex) ∉ regsRead (.loadImmediate 7 1) := by decide

theorem test_witness_FlagWritersAndReaders :
    (∃ t : State, step (running 0 .unset regs0 [(0, 0xA7), (1, 0), (2, 1)]) = .next t ∧ t.flag ≠ .unset) ∧
    isConditionalJump .halt = false := by
  refine ⟨⟨_, rfl, ?_⟩, rfl⟩
  decide

theorem test_witness_OutputGrowsOnlyByPrintReg : ∃ t : State,
    step (running 0 .unset regs0 [(0, 0x47), (1, 7)]) = .next t ∧ t.output = [0xF4] := by
  refine ⟨_, rfl, ?_⟩
  decide

theorem test_witness_OnlyPushAndCallWriteMemory : ∃ t : State,
    step (running 0 .unset #v[5, 0, 0, 0, 0, 0, 0, 0] [(0, 0x45), (1, 0)]) = .next t ∧ t.readByte 255 = some 5 := by
  refine ⟨_, rfl, ?_⟩
  decide

theorem test_witness_StatusTransitions :
    State.reset.status = .idle ∧ (atPc 0).status ≠ .idle ∧ State.reset.status ≠ .running ∧
    (∃ t : State, act (.load [1]) State.reset = .next t) ∧
    ∃ t : State, (atPc 0).status = .running ∧ act .step (atPc 0) = .next t ∧ (atPc 0).params.unknownOpcode = .fault :=
  ⟨by decide, by decide, by decide, ⟨_, rfl⟩, _, rfl, rfl, rfl⟩

theorem test_witness_ParametersAreFixed : ∃ t : State, act (.load [1, 2]) State.reset = .next t := ⟨_, rfl⟩

theorem test_witness_StoppedMachineStays :
    (State.reset.setStatus .halted).status = .halted ∧ (State.reset.setStatus .faulted).status = .faulted := by decide

theorem test_witness_InvariantIsKept : Inv State.reset ∧ ∃ t : State, act .start State.reset = .next t :=
  ⟨⟨by decide, fun h => Status.noConfusion h, fun h => Status.noConfusion h⟩, _, rfl⟩

theorem test_witness_LoadPlacesImage :
    State.reset.status = .idle ∧ (List.replicate 256 (1 : Byte)).length ≤ 256 ∧ 255 < (List.replicate 256 (1 : Byte)).length ∧
    ([] : List Byte).length ≤ 256 := by
  rw [List.length_replicate]
  decide

theorem test_witness_ExcludedLoadsAreRefused :
    (atPc 0).status ≠ .idle ∧ State.reset.status = .idle ∧ 256 < (List.replicate 257 (1 : Byte)).length := by
  rw [List.length_replicate]
  decide

theorem test_witness_StartRunsIdleMachine : State.reset.status = .idle ∧ (atPc 0).status ≠ .idle := by decide

/-- A running machine with the reference's parameters: `bytes` from the pc on. -/
def stalling (pc : Byte) (bytes : List Byte) : State :=
  { running pc .unset regs0 (Memory.writeFrom [] pc.toNat bytes) with params := reference }

/-- Checks C1, C3, C4 and C10 under STALL; then an unknown opcode and a complete instruction, which raise nothing. -/
theorem test_witness_StallKeepsEveryOtherCheck :
    ((stalling 255 []).status = .running ∧ (stalling 255 []).params.unknownOpcode = .stall ∧
      stepFault (stalling 255 []) = some (.uninit, .mem 255)) ∧
    stepFault (stalling 254 [0xA0, 0]) = some (.address, .number 256) ∧
    stepFault (stalling 253 [0xA0, 0]) = some (.uninit, .mem 255) ∧
    stepFault (stalling 253 [0xA0, 0, 1]) = some (.address, .number 256) ∧
    stepFault (stalling 255 [0x69]) = some (.decode, .number 0x69) ∧ stepFault (stalling 252 [0xA0, 0, 1]) = none := by decide

end Sys2Proof.Tests
end

section
/-! PROOFS. The checks C5 to C10 against `execFault`: an instruction takes the fault of its first failing check, and where none
fails it commits, with the status `statusAfter`. -/

namespace Sys2Proof.Machine

/-! ### `execFault`, check by check -/

/-- Check C5 on a list of operand bytes. -/
def indexFault (bs : List Byte) : Option (Cause × FaultInfo) :=
  (bs.find? fun b => decide (8 ≤ b.toNat)).map fun b => (.regIndex, .number b.toNat)

/-- Check C6 on a list of registers. -/
def readFault (s : State) (rs : List RegIndex) : Option (Cause × FaultInfo) :=
  (rs.find? fun r => !decide (Readable s r)).map fun r => (.uninit, .reg r)

/-- Check C7, where the instruction has it. -/
def flagFault (s : State) (jumps : Bool) : Option (Cause × FaultInfo) :=
  if jumps = true ∧ s.flag = .unset then some (.uninit, .flag) else none

/-- Check C8 on the divisor registers. -/
def divisorFault (s : State) (rs : List RegIndex) : Option (Cause × FaultInfo) :=
  (rs.find? fun r => decide (s.reg r = 0)).map fun r => (.divZero, .number r.val)

/-- Check C9, where the instruction has it. -/
def stackFault (s : State) (reads : Bool) : Option (Cause × FaultInfo) :=
  if reads = true ∧ s.loadByte (s.reg 7) = none then some (.uninit, .mem (s.reg 7)) else none

/-- Check C10, where the instruction has it. -/
def successorFault (s : State) (offset : Option Nat) : Option (Cause × FaultInfo) :=
  offset.bind fun k => if 255 < s.pc.toNat + k then some (.address, .number 256) else none

theorem execFault_eq (i : Instr) (s : State) :
    execFault i s = (indexFault (registerOperands i) <|> readFault s (regsRead i) <|> flagFault s (isConditionalJump i) <|>
      divisorFault s (divisorOf i) <|> stackFault s (readsStack i) <|> successorFault s (successorOffset s i)) := rfl

theorem indexFault_cons_of_ge {b : Byte} (h : 8 ≤ b.toNat) (bs : List Byte) :
    indexFault (b :: bs) = some (.regIndex, .number b.toNat) := by
  simp [indexFault, h]

theorem indexFault_cons_regByte (i : RegIndex) (bs : List Byte) : indexFault (regByte i :: bs) = indexFault bs := by
  have h : ¬ 8 ≤ (regByte i).toNat := by rw [regByte_toNat]; omega
  simp [indexFault, h]

@[simp] theorem named_regByte (i : RegIndex) : named (regByte i) = [i] := by
  simp [named, regByte_toNat]

theorem readFault_cons_of_readable {s : State} {i : RegIndex} (h : Readable s i) (rs : List RegIndex) :
    readFault s (i :: rs) = readFault s rs := by
  simp only [readFault, List.find?_cons, h, decide_true, Bool.not_true]

theorem readFault_cons_of_not_readable {s : State} {i : RegIndex} (h : ¬ Readable s i) (rs : List RegIndex) :
    readFault s (i :: rs) = some (.uninit, .reg i) := by
  simp only [readFault, List.find?_cons, h, decide_false, Bool.not_false, Option.map_some]

/-- R7 can always be read (R18), so naming it last adds no fault. -/
theorem readFault_append_seven (s : State) (rs : List RegIndex) : readFault s (rs ++ [7]) = readFault s rs := by
  simp [readFault, List.find?_append]

/-! ### The checks of the meanings -/

/-- The outcome is the fault given, taken at `s`, or, with no fault given, a next state with status `st`. -/
def Checked (r : Result) (s : State) (st : Status) : Option (Cause × FaultInfo) → Prop
  | some (c, n) => r = .next (takeFault c n s)
  | none => ∃ t : State, r = .next t ∧ t.status = st

section
variable {s : State} {st : Status} {F : Option (Cause × FaultInfo)}

theorem checked_next {t : State} (h : t.status = st) : Checked (.next t) s st none := ⟨t, rfl, h⟩

theorem withIndex_checked {b : Byte} {bs : List Byte} {k : RegIndex → Result}
    (hk : ∀ i : RegIndex, b = regByte i → Checked (k i) s st (indexFault bs <|> F)) :
    Checked (withIndex b s k) s st (indexFault (b :: bs) <|> F) := by
  rcases withIndex_cases b s k with ⟨i, rfl, h⟩ | ⟨hb, h⟩
  · rw [h, indexFault_cons_regByte]; exact hk i rfl
  · rw [h, indexFault_cons_of_ge hb]; rfl

theorem withReg_checked {i : RegIndex} {rs : List RegIndex} {k : Byte → Result}
    (hk : Checked (k (s.reg i)) s st (readFault s rs <|> F)) :
    Checked (withReg i s k) s st (readFault s (i :: rs) <|> F) := by
  by_cases h : Readable s i
  · rw [withReg_of_readable h, readFault_cons_of_readable h]; exact hk
  · rw [withReg_of_not_readable h, readFault_cons_of_not_readable h]; rfl

theorem withOperand_checked {a : Byte} {k : RegIndex → Byte → Result}
    (hk : ∀ i : RegIndex, Checked (k i (s.reg i)) s st F) :
    Checked (withOperand a s k) s st (indexFault [a] <|> readFault s (named a) <|> F) :=
  withIndex_checked fun i hi => by
    rw [hi, named_regByte]
    exact withReg_checked (hk i)

theorem withOperands_checked {a b : Byte} {k : RegIndex → RegIndex → Byte → Byte → Result}
    (hk : ∀ i j : RegIndex, b = regByte j → Checked (k i j (s.reg i) (s.reg j)) s st F) :
    Checked (withOperands a b s k) s st (indexFault [a, b] <|> readFault s (named a ++ named b) <|> F) :=
  withIndex_checked fun i hi => withIndex_checked fun j hj => by
    rw [hi, hj, named_regByte, named_regByte]
    exact withReg_checked (withReg_checked (hk i j hj))

theorem withStackByte_checked {k : Byte → Result} (hk : ∀ v : Byte, Checked (k v) s st F) :
    Checked (withStackByte s k) s st (stackFault s true <|> F) := by
  cases h : s.loadByte (s.reg 7) with
  | some v => simpa [withStackByte_of_some h, stackFault, h] using hk v
  | none => simp [withStackByte_of_none h, stackFault, h, Checked, raise_eq]

theorem withPcPlus_checked {n : Nat} {k : Byte → Result} (hk : ∀ p : Byte, Checked (k p) s st none) :
    Checked (withPcPlus n s k) s st (successorFault s (some n)) := by
  rcases withPcPlus_cases n s k with ⟨hp, h⟩ | ⟨hp, h⟩
  · simpa [h, successorFault, Nat.not_lt.2 hp] using hk _
  · simp [h, successorFault, hp, Checked, raise_eq]

/-- Check C10 and a commit that keeps the status: how most meanings end. -/
theorem withPcPlus_next_checked {n : Nat} {f : Byte → State} (hf : ∀ p : Byte, (f p).status = s.status) :
    Checked (withPcPlus n s fun p => .next (f p)) s s.status (successorFault s (some n)) :=
  withPcPlus_checked fun p => checked_next (hf p)

theorem withOperand_next_checked {a : Byte} {n : Nat} {f : RegIndex → Byte → Byte → State}
    (hf : ∀ (i : RegIndex) (x p : Byte), (f i x p).status = s.status) :
    Checked (withOperand a s fun i x => withPcPlus n s fun p => .next (f i x p)) s s.status
      (indexFault [a] <|> readFault s (named a) <|> successorFault s (some n)) :=
  withOperand_checked fun i => withPcPlus_next_checked (hf i (s.reg i))

theorem divisorFault_of_alu_eq_none {op : AluOp} {x : Byte} {j : RegIndex} (h : alu op x (s.reg j) = none) :
    divisorFault s (if op = .div then [j] else []) = some (.divZero, .number j.val) := by
  obtain ⟨hop, hj⟩ := alu_eq_none.1 h
  simp [hop, divisorFault, hj]

theorem divisorFault_of_alu_eq_some {op : AluOp} {x v : Byte} {j : RegIndex} (h : alu op x (s.reg j) = some v) :
    divisorFault s (if op = .div then [j] else []) = none := by
  split
  · next hop =>
    have hj : s.reg j ≠ 0 := fun hj => by simp [alu_eq_none.2 ⟨hop, hj⟩] at h
    simpa [divisorFault] using hj
  · rfl

theorem aluTwo_checked (op : AluOp) (a b : Byte) :
    Checked (aluTwo op a b s) s s.status (indexFault [a, b] <|> readFault s (named a ++ named b) <|>
      divisorFault s (if op = .div then named b else []) <|> successorFault s (some 3)) :=
  withOperands_checked fun i j hj => by
    rw [hj, named_regByte]
    cases hv : alu op (s.reg i) (s.reg j) with
    | none => rw [divisorFault_of_alu_eq_none hv]; rfl
    | some v => rw [divisorFault_of_alu_eq_some hv]; exact withPcPlus_next_checked fun _ => rfl

theorem branch_checked (taken : Bool) (x : Byte) :
    Checked (branch taken x s) s s.status (successorFault s (if taken then none else some 2)) := by
  cases taken
  · exact withPcPlus_next_checked fun _ => rfl
  · exact checked_next rfl

/-- C7 and the fall-through's C10 of a conditional jump whose branch is taken where `taken` says so of the flag. -/
theorem conditionalBranch_checked (taken : Bool → Bool) (x : Byte) {offset : Option Nat}
    (ho : offset = if taken (s.flag = .equal) then none else some 2) :
    Checked (withFlagEqual s fun eq => branch (taken eq) x s) s s.status
      (flagFault s true <|> successorFault s offset) := by
  subst ho
  cases h : s.flag with
  | unset => simp [withFlagEqual_unset h, flagFault, h, Checked, raise_eq]
  | equal => simpa [withFlagEqual_equal h, flagFault, h] using branch_checked (taken true) x
  | greater => simpa [withFlagEqual_unequal (.inl h), flagFault, h] using branch_checked (taken false) x
  | less => simpa [withFlagEqual_unequal (.inr h), flagFault, h] using branch_checked (taken false) x

end

/-- The status that an instruction leaves where no check fails: HALT alone changes it (R79). -/
def statusAfter (i : Instr) (s : State) : Status := if i = .halt then .halted else s.status

/-- `execFault` names the first check of the meaning that fails, for every instruction (R70). A check that the instruction
does not have reduces to no fault. -/
theorem exec_checked (i : Instr) (s : State) : Checked (exec i s) s (statusAfter i s) (execFault i s) := by
  rw [execFault_eq]
  cases i with
  | halt => exact checked_next rfl
  | ret => exact withStackByte_checked fun _ => checked_next rfl
  | push a => rw [regsRead, readFault_append_seven]; exact withOperand_next_checked fun _ _ _ => rfl
  | pop a => exact withIndex_checked fun _ _ => withStackByte_checked fun _ => withPcPlus_next_checked fun _ => rfl
  | printReg a => exact withOperand_next_checked fun _ _ _ => rfl
  | call a => rw [regsRead, readFault_append_seven]; exact withOperand_next_checked fun _ _ _ => rfl
  | jump a => exact withOperand_checked fun _ => checked_next rfl
  | jumpIfEqual a =>
    exact withOperand_checked fun r => conditionalBranch_checked id (s.reg r) (by simp [successorOffset])
  | jumpIfNotEqual a =>
    exact withOperand_checked fun r => conditionalBranch_checked not (s.reg r) (by simp [successorOffset])
  | not a => exact withOperand_next_checked fun _ _ _ => rfl
  | loadImmediate a imm => exact withIndex_checked fun _ _ => withPcPlus_next_checked fun _ => rfl
  | compare a b => exact withOperands_checked fun _ _ _ => withPcPlus_next_checked fun _ => rfl
  | add a b => exact aluTwo_checked .add a b
  | sub a b => exact aluTwo_checked .sub a b
  | mul a b => exact aluTwo_checked .mul a b
  | div a b => exact aluTwo_checked .div a b
  | and a b => exact aluTwo_checked .and a b
  | or a b => exact aluTwo_checked .or a b
  | xor a b => exact aluTwo_checked .xor a b
  | shl a b => exact aluTwo_checked .shl a b
  | shr a b => exact aluTwo_checked .shr a b

end Sys2Proof.Machine
end

section
/-! PROOFS. A whole Step against `stepFault`, and the status it leaves (R30, R70). -/

namespace Sys2Proof

/-- An operand that the row's format does not have is ignored (R53). -/
theorem Op.build_of_no_operands {o : Op} (h : o.format.operands = 0) (a b a' b' : Byte) :
    o.build a b = o.build a' b' := by
  cases o <;> simp [Op.build, Op.format, Format.operands] at h ⊢

theorem Op.build_of_one_operand {o : Op} (h : o.format.operands = 1) (a b b' : Byte) : o.build a b = o.build a b' := by
  cases o <;> simp [Op.build, Op.format, Format.operands] at h ⊢

theorem Format.operands_cases (f : Format) : f.operands = 0 ∨ f.operands = 1 ∨ f.operands = 2 := by
  cases f <;> decide

theorem Op.build_eq_halt {o : Op} {a b : Byte} : o.build a b = .halt ↔ o = .halt := by
  cases o <;> simp [Op.build]

/-- HALT is encoded by 0x01 alone (R57). -/
theorem Op.opcode_eq_halt {o : Op} : o.opcode = 0x01 ↔ o = .halt :=
  ⟨Op.opcode_injective o .halt, fun h => h ▸ rfl⟩

theorem decodeOpcode_halt (n : NotOpcode) : decodeOpcode n 0x01 = some .halt :=
  decodeOpcode_eq_some.2 ⟨rfl, .inr nofun⟩

namespace Machine

theorem operandAddr_one (s : State) : operandAddr s 1 = s.pc + 1 := by
  apply BitVec.eq_of_toNat_eq; simp [operandAddr]

theorem operandAddr_two (s : State) : operandAddr s 2 = s.pc + 2 := by
  apply BitVec.eq_of_toNat_eq; simp [operandAddr]

/-- The state at which C2 and every later check is made: `ir` holds the opcode, where C1 passed (R67). -/
def State.afterFetch (s : State) : State := s.setIr ((s.loadByte s.pc).getD s.ir)

theorem State.afterFetch_of_some {s : State} {op : Byte} (h : s.loadByte s.pc = some op) : s.afterFetch = s.setIr op := by
  simp [State.afterFetch, h]

theorem State.afterFetch_of_none {s : State} (h : s.loadByte s.pc = none) : s.afterFetch = s := by
  simp [State.afterFetch, h, State.setIr]

@[simp] theorem State.afterFetch_status (s : State) : s.afterFetch.status = s.status := rfl

/-- No check reads `ir`. -/
theorem execFault_setIr (i : Instr) (s : State) (op : Byte) : execFault i (s.setIr op) = execFault i s := rfl

theorem execFault_afterFetch (i : Instr) (s : State) : execFault i s.afterFetch = execFault i s := rfl

theorem stepFault_setIr (s : State) (op : Byte) : stepFault (s.setIr op) = stepFault s := rfl

/-! ### `stepFault`, case by case -/

theorem stepFault_unwritten {s : State} (h : s.loadByte s.pc = none) : stepFault s = some (.uninit, .mem s.pc) := by
  simp [stepFault, h]

theorem stepFault_unknown {s : State} {op : Byte} (h : s.loadByte s.pc = some op)
    (hd : decodeOpcode s.params.notOpcode op = none) : stepFault s = some (.decode, .number op.toNat) := by
  simp [stepFault, h, hd]

theorem stepFault_pastTop {s : State} {op : Byte} {o : Op} (h : s.loadByte s.pc = some op)
    (hd : decodeOpcode s.params.notOpcode op = some o) (hp : 255 < s.pc.toNat + o.length - 1) :
    stepFault s = some (.address, .number 256) := by
  simp [stepFault, h, hd, hp]

/-- Past C3, the operand bytes' C4 and the instruction's own checks are left. -/
theorem stepFault_known {s : State} {op : Byte} {o : Op} (h : s.loadByte s.pc = some op)
    (hd : decodeOpcode s.params.notOpcode op = some o) (hp : s.pc.toNat + o.length - 1 ≤ 255) :
    stepFault s =
      if 1 ≤ o.format.operands ∧ s.loadByte (s.pc + 1) = none then some (.uninit, .mem (s.pc + 1))
      else if o.format.operands = 2 ∧ s.loadByte (s.pc + 2) = none then some (.uninit, .mem (s.pc + 2))
      else execFault (o.build ((s.loadByte (s.pc + 1)).getD 0) ((s.loadByte (s.pc + 2)).getD 0)) s := by
  simp only [stepFault, h, hd, Nat.not_lt.2 hp, if_false, operandAddr_one, operandAddr_two]

/-- The operand fetch past C3: C4's fault, or the instruction whose checks are left. -/
theorem fetchOperands_stepFault {s : State} {op : Byte} {o : Op} (h : s.loadByte s.pc = some op)
    (hd : decodeOpcode s.params.notOpcode op = some o) (hp : s.pc.toNat + o.length - 1 ≤ 255) :
    (∃ (c : Cause) (n : FaultInfo), stepFault s = some (c, n) ∧ fetchOperands o s = .stop (takeFault c n s)) ∨
    ∃ a b : Byte, stepFault s = execFault (o.build a b) s ∧ fetchOperands o s = .run (o.build a b) s := by
  have hsf := stepFault_known h hd hp
  unfold fetchOperands
  split
  · next h0 => exact .inr ⟨0, 0, by simp [hsf, h0, Op.build_of_no_operands h0 _ _ 0 0], rfl⟩
  · next h1 =>
    cases ha : s.loadByte (s.pc + 1) with
    | none => exact .inl ⟨_, _, by rw [hsf, ha]; simp [h1], rfl⟩
    | some a => exact .inr ⟨a, 0, by rw [hsf, ha]; simp [h1, Op.build_of_one_operand h1 a _ 0], rfl⟩
  · next h0 h1 =>
    have h2 : o.format.operands = 2 := (Format.operands_cases o.format).resolve_left h0 |>.resolve_left h1
    cases ha : s.loadByte (s.pc + 1) with
    | none => exact .inl ⟨_, _, by rw [hsf, ha]; simp [h2], rfl⟩
    | some a =>
      cases hb : s.loadByte (s.pc + 2) with
      | none => exact .inl ⟨_, _, by rw [hsf, ha, hb]; simp [h2], rfl⟩
      | some b => exact .inr ⟨a, b, by rw [hsf, ha, hb]; simp, rfl⟩

/-- All the fetch and decode phases can do: the fault of the first check of C1 to C4 that fails; a stall at an unknown opcode
under the policy STALL; or an instruction of the opcode's row, with only its own checks left. -/
theorem fetch_stepFault (s : State) :
    (∃ (c : Cause) (n : FaultInfo), stepFault s = some (c, n) ∧ fetch s = .stop (takeFault c n s.afterFetch)) ∨
    (∃ op : Byte, s.loadByte s.pc = some op ∧ stepFault s = some (.decode, .number op.toNat) ∧
      s.params.unknownOpcode = .stall ∧ fetch s = .stop s.afterFetch) ∨
    (∃ (op : Byte) (o : Op) (a b : Byte), s.loadByte s.pc = some op ∧ decodeOpcode s.params.notOpcode op = some o ∧
      stepFault s = execFault (o.build a b) s ∧ fetch s = .run (o.build a b) s.afterFetch) := by
  cases h : s.loadByte s.pc with
  | none =>
    rw [State.afterFetch_of_none h]
    exact .inl ⟨_, _, stepFault_unwritten h, fetch_unwritten h⟩
  | some op =>
    rw [State.afterFetch_of_some h]
    cases hd : decodeOpcode s.params.notOpcode op with
    | none =>
      have hf := fetch_unknown h hd
      cases hu : s.params.unknownOpcode with
      | fault => exact .inl ⟨_, _, stepFault_unknown h hd, by simpa [unknownOpcode, hu] using hf⟩
      | stall => exact .inr (.inl ⟨op, rfl, stepFault_unknown h hd, rfl, by simpa [unknownOpcode, hu] using hf⟩)
    | some o =>
      by_cases hp : 255 < s.pc.toNat + o.length - 1
      · exact .inl ⟨_, _, stepFault_pastTop h hd hp, fetch_pastTop h hd hp⟩
      · have hp' := Nat.not_lt.1 hp
        rw [fetch_known h hd hp']
        rcases fetchOperands_stepFault (s := s.setIr op) h hd hp' with ⟨c, n, hf, hr⟩ | ⟨a, b, hf, hr⟩ <;>
          rw [stepFault_setIr] at hf
        · exact .inl ⟨c, n, hf, hr⟩
        · rw [execFault_setIr] at hf
          exact .inr (.inr ⟨op, o, a, b, rfl, hd, hf, hr⟩)

theorem step_of_fetch_stop {s t : State} (hs : s.status = .running) (hf : fetch s = .stop t) : step s = .next t := by
  rw [step_running hs, hf]

theorem step_of_fetch_run {s t : State} {i : Instr} (hs : s.status = .running) (hf : fetch s = .run i t) :
    step s = exec i t := by
  rw [step_running hs, hf]

/-- All a Step of a RUNNING machine can do: it takes the fault of the first check of C1 to C10 that fails; it stalls at an
unknown opcode under the policy STALL; or it completes the instruction that the opcode selects. -/
theorem step_stepFault {s : State} (hs : s.status = .running) :
    (∃ (c : Cause) (n : FaultInfo), stepFault s = some (c, n) ∧ step s = .next (takeFault c n s.afterFetch)) ∨
    (∃ op : Byte, s.loadByte s.pc = some op ∧ stepFault s = some (.decode, .number op.toNat) ∧
      s.params.unknownOpcode = .stall ∧ step s = .next s.afterFetch) ∨
    (∃ (op : Byte) (o : Op) (a b : Byte) (t : State), s.loadByte s.pc = some op ∧
      decodeOpcode s.params.notOpcode op = some o ∧ stepFault s = none ∧ step s = .next t ∧
      t.status = statusAfter (o.build a b) s) := by
  rcases fetch_stepFault s with ⟨c, n, hsf, hf⟩ | ⟨op, h, hsf, hu, hf⟩ | ⟨op, o, a, b, h, hd, hsf, hf⟩
  · exact .inl ⟨c, n, hsf, step_of_fetch_stop hs hf⟩
  · exact .inr (.inl ⟨op, h, hsf, hu, step_of_fetch_stop hs hf⟩)
  · have hc : Checked (step s) s.afterFetch (statusAfter (o.build a b) s.afterFetch) (stepFault s) := by
      rw [step_of_fetch_run hs hf, hsf, ← execFault_afterFetch]
      exact exec_checked (o.build a b) s.afterFetch
    cases hF : stepFault s with
    | some f =>
      rw [hF] at hc
      exact .inl ⟨f.1, f.2, rfl, hc⟩
    | none =>
      rw [hF] at hc
      obtain ⟨t, ht, hst⟩ := hc
      exact .inr (.inr ⟨op, o, a, b, t, h, hd, rfl, ht, hst⟩)

/-! ### The status -/

/-- At a HALT no check fails. -/
theorem stepFault_of_halt {s : State} (h : s.loadByte s.pc = some 0x01) : stepFault s = none := by
  have hp : s.pc.toNat + Op.length .halt - 1 ≤ 255 := Nat.le_of_lt_succ s.pc.isLt
  rw [stepFault_known h (decodeOpcode_halt _) hp]
  rfl

/-- What a Step of a RUNNING machine does to the status, under either unknown-opcode policy (R30). -/
theorem step_status {s t : State} (hs : s.status = .running) (h : step s = .next t) :
    t.status ≠ .idle ∧ (t.status = .halted ↔ s.loadByte s.pc = some 0x01) ∧
      (s.params.unknownOpcode = .fault → (t.status = .faulted ↔ stepFault s ≠ none)) := by
  have no_halt {f : Cause × FaultInfo} (hf : stepFault s = some f) : s.loadByte s.pc ≠ some 0x01 := fun hb => by
    simp [stepFault_of_halt hb] at hf
  rcases step_stepFault hs with ⟨c, n, hsf, hr⟩ | ⟨op, -, hsf, hu, hr⟩ | ⟨op, o, a, b, u, hop, hd, hsf, hr, hst⟩ <;>
    obtain rfl := Host.Outcome.next.inj (h.symm.trans hr)
  · simpa [hsf] using no_halt hsf
  · simpa [hs, hu] using no_halt hsf
  · obtain ⟨rfl, -⟩ := decodeOpcode_eq_some.1 hd
    rw [hst, hop, Option.some_inj, Op.opcode_eq_halt]
    by_cases ho : o = .halt
    · simp [statusAfter, Op.build_eq_halt, ho, hsf]
    · simp [statusAfter, Op.build_eq_halt, ho, hs, hsf]

theorem applyStart_status (s : State) :
    (s.status = .idle → s.applyStart.status = .running) ∧ (s.status ≠ .idle → s.applyStart.status = s.status) := by
  unfold State.applyStart
  cases h : s.status <;> simp [h]

theorem loadImage_status {image : List Byte} {s t : State} (h : loadImage image s = .next t) : t.status = s.status := by
  unfold loadImage at h
  split at h
  · split at h
    · cases h; rfl
    · cases h
  · cases h

/-- Outside RUNNING a Step does nothing (R77). -/
theorem step_of_not_running {s : State} (h : s.status ≠ .running) : step s = .next s := by
  unfold step
  cases hs : s.status with
  | running => exact absurd hs h
  | _ => rfl

/-- Settles O44: each move of the host by its own lemma, a Step of a RUNNING machine by `step_status`. -/
theorem statusTransitions : Obligations.StatusTransitions :=
  ⟨fun s => ⟨s.applyReset, rfl, rfl⟩,
   fun s => ⟨s.applyStart, rfl, applyStart_status s⟩,
   fun _ _ _ => loadImage_status,
   fun s hs => ⟨s, step_of_not_running hs, rfl⟩,
   fun _ _ => step_status⟩

end Machine
end Sys2Proof
end

section
/-! PROOFS. The unknown opcodes: how many bytes there are that no row encodes, and the Step that fetches one (R61, R78). -/

namespace Sys2Proof

/-- The numbers of the opcode bytes that are unknown under a setting of NOT_OPCODE (R61). -/
def unknownOpcodes (n : NotOpcode) : List Nat :=
  (List.range 256).filter fun b => (decodeOpcode n (BitVec.ofNat 8 b)).isNone

/-- The numbers of the opcode bytes that select a row. -/
def knownOpcodes (n : NotOpcode) : List Nat :=
  (List.range 256).filter fun b => (decodeOpcode n (BitVec.ofNat 8 b)).isSome

theorem isSome_decodeOpcode_iff {n : NotOpcode} {b : Byte} :
    (decodeOpcode n b).isSome ↔ ∃ o ∈ opcodeRows n, o.opcode = b := by
  simp only [Option.isSome_iff_exists, decodeOpcode_eq_some, mem_opcodeRows, and_comm]

theorem mem_knownOpcodes {n : NotOpcode} {k : Nat} : k ∈ knownOpcodes n ↔ ∃ o ∈ opcodeRows n, o.opcode.toNat = k := by
  simp only [knownOpcodes, List.mem_filter, List.mem_range, isSome_decodeOpcode_iff]
  constructor
  · rintro ⟨hk, o, ho, hb⟩
    exact ⟨o, ho, by rw [hb, BitVec.toNat_ofNat, Nat.mod_eq_of_lt hk]⟩
  · rintro ⟨o, ho, rfl⟩
    exact ⟨o.opcode.isLt, o, ho, by simp⟩

theorem opcodeRows_nodup (n : NotOpcode) : (opcodeRows n).Nodup := by
  cases n <;> decide

theorem knownOpcodes_nodup (n : NotOpcode) : (knownOpcodes n).Nodup := List.nodup_range.filter _

/-- The known bytes are the rows' opcodes, each once. -/
theorem knownOpcodes_perm (n : NotOpcode) : (knownOpcodes n).Perm ((opcodeRows n).map fun o => o.opcode.toNat) := by
  have hinj : Function.Injective fun o : Op => o.opcode.toNat := fun o p h =>
    Op.opcode_injective o p (BitVec.eq_of_toNat_eq h)
  exact (List.perm_ext_iff_of_nodup (knownOpcodes_nodup n) ((opcodeRows_nodup n).map hinj)).2 fun _ =>
    mem_knownOpcodes.trans List.mem_map.symm

/-- A byte is unknown or the opcode of exactly one row. -/
theorem opcodeRows_length_add_unknownOpcodes_length (n : NotOpcode) :
    (opcodeRows n).length + (unknownOpcodes n).length = 256 := by
  have hsplit := List.length_eq_length_filter_add (l := List.range 256)
    fun b => (decodeOpcode n (BitVec.ofNat 8 b)).isSome
  have hknown := (knownOpcodes_perm n).length_eq
  simp only [List.length_range, Option.not_isSome] at hsplit
  rw [List.length_map] at hknown
  rw [← hknown]
  exact hsplit.symm

/-- R61 under the default: R57 has 21 rows. -/
theorem unknownOpcodes_x69_length : (unknownOpcodes .x69).length = 235 := by
  have hrows : (opcodeRows .x69).length = 21 := rfl
  have htotal := opcodeRows_length_add_unknownOpcodes_length .x69
  omega

/-- R61 under NOT_OPCODE = `none`: NOT's row has no encoding (R60), and 20 are left. -/
theorem unknownOpcodes_absent_length : (unknownOpcodes .absent).length = 236 := by
  have hrows : (opcodeRows .absent).length = 20 := rfl
  have htotal := opcodeRows_length_add_unknownOpcodes_length .absent
  omega

namespace Machine

theorem unknownOpcode_of_fault {s : State} (h : s.params.unknownOpcode = .fault) (op : Byte) :
    unknownOpcode op s = takeFault .decode (.number op.toNat) s := by
  simp [unknownOpcode, h]

theorem unknownOpcode_of_stall {s : State} (h : s.params.unknownOpcode = .stall) (op : Byte) :
    unknownOpcode op s = s := by
  simp [unknownOpcode, h]

/-- A Step that fetches an unknown opcode ends at check C2, with `ir` loaded. -/
theorem step_unknown {s : State} {op : Byte} (hs : s.status = .running) (h : s.loadByte s.pc = some op)
    (hd : decodeOpcode s.params.notOpcode op = none) : step s = .next (unknownOpcode op (s.setIr op)) :=
  step_of_fetch_stop hs (fetch_unknown h hd)

theorem step_unknown_fault {s : State} {op : Byte} (hs : s.status = .running) (h : s.loadByte s.pc = some op)
    (hd : decodeOpcode s.params.notOpcode op = none) (hu : s.params.unknownOpcode = .fault) :
    step s = .next (takeFault .decode (.number op.toNat) (s.setIr op)) := by
  rw [step_unknown hs h hd, unknownOpcode_of_fault (s := s.setIr op) hu]

theorem step_unknown_stall {s : State} {op : Byte} (hs : s.status = .running) (h : s.loadByte s.pc = some op)
    (hd : decodeOpcode s.params.notOpcode op = none) (hu : s.params.unknownOpcode = .stall) :
    step s = .next (s.setIr op) := by
  rw [step_unknown hs h hd, unknownOpcode_of_stall (s := s.setIr op) hu]

/-- Settles O29: the counts from the rows' distinct opcodes, the Step from what check C2 does under each policy. -/
theorem unknownOpcodesRaiseDecode : Obligations.UnknownOpcodesRaiseDecode :=
  ⟨unknownOpcodes_x69_length, unknownOpcodes_absent_length,
   fun _ _ => step_unknown_fault,
   fun _ _ => step_unknown_stall⟩

end Machine
end Sys2Proof
end

section
/-! PROOFS. The execution cycle: the first failing check of a Step, precise faults, and the Steps that repeat for ever, at a
HALT, in a stall and outside RUNNING (R70, R71, R77 to R79). -/

namespace Sys2Proof.Machine

/-! ### The first failing check -/

theorem statusAfter_ne_faulted {s : State} (hs : s.status = .running) (i : Instr) : statusAfter i s ≠ .faulted := by
  unfold statusAfter
  split
  · decide
  · simp [hs]

/-- The policy STALL leaves out the fault of check C2 and no other (R78). -/
theorem step_of_stepFault_eq_some {s : State} {c : Cause} {n : FaultInfo} (hs : s.status = .running)
    (hu : s.params.unknownOpcode = .stall → c ≠ .decode) (h : stepFault s = some (c, n)) :
    step s = .next (takeFault c n s.afterFetch) := by
  rcases step_stepFault hs with ⟨_, _, hsf, hr⟩ | ⟨_, -, hsf, hst, -⟩ | ⟨_, _, _, _, _, -, -, hsf, -⟩
  · obtain ⟨rfl, rfl⟩ := Prod.mk.inj (Option.some.inj (h.symm.trans hsf))
    exact hr
  · obtain ⟨rfl, -⟩ := Prod.mk.inj (Option.some.inj (h.symm.trans hsf))
    exact absurd rfl (hu hst)
  · simp [hsf] at h

theorem step_of_stepFault_eq_none {s : State} (hs : s.status = .running) (h : stepFault s = none) :
    ∃ t : State, step s = .next t ∧ t.status ≠ .faulted := by
  rcases step_stepFault hs with ⟨_, _, hsf, -⟩ | ⟨_, -, hsf, -⟩ | ⟨_, o, a, b, t, -, -, -, hr, hst⟩
  · simp [hsf] at h
  · simp [hsf] at h
  · exact ⟨t, hr, hst ▸ statusAfter_ne_faulted hs (o.build a b)⟩

/-- Settles O34: both answers of `stepFault`, under the policy that leaves out no check. -/
theorem stepTakesFirstFailingCheck : Obligations.StepTakesFirstFailingCheck := fun s hs hu =>
  ⟨fun _ _ => step_of_stepFault_eq_some hs (by simp [hu]), step_of_stepFault_eq_none hs⟩

/-! ### Precise faults -/

/-- The one way a Step of a RUNNING machine ends FAULTED (R71). -/
theorem eq_takeFault_of_step_faulted {s t : State} (hs : s.status = .running) (h : step s = .next t)
    (ht : t.status = .faulted) : ∃ (c : Cause) (n : FaultInfo), t = takeFault c n s.afterFetch := by
  rcases step_stepFault hs with ⟨c, n, -, hr⟩ | ⟨_, -, -, -, hr⟩ | ⟨_, o, a, b, _, -, -, -, hr, hst⟩ <;>
    obtain rfl := Host.Outcome.next.inj (h.symm.trans hr)
  · exact ⟨c, n, rfl⟩
  · simp [hs] at ht
  · exact absurd (hst.symm.trans ht) (statusAfter_ne_faulted hs (o.build a b))

/-- Settles O35: taking a fault after the fetch touches `ir`, the status and the fault record alone. -/
theorem faultsArePrecise : Obligations.FaultsArePrecise := fun _ _ hs h ht => by
  obtain ⟨c, n, rfl⟩ := eq_takeFault_of_step_faulted hs h ht
  exact ⟨rfl, rfl⟩

/-! ### Steps that repeat for ever -/

/-- Settles O31: in each of the three statuses other than RUNNING, `step` answers the state given. -/
theorem stepOutsideRunningDoesNothing : Obligations.StepOutsideRunningDoesNothing := fun _ => step_of_not_running

/-- HALT has no operand, so checks C3 and C4 pass at every pc (R79). -/
theorem fetch_halt {s : State} (h : s.loadByte s.pc = some 0x01) : fetch s = .run .halt (s.setIr 0x01) := by
  have hp : s.pc.toNat + Op.length .halt - 1 ≤ 255 := Nat.le_of_lt_succ s.pc.isLt
  rw [fetch_known h (decodeOpcode_halt _) hp]
  rfl

theorem step_halt {s : State} (hs : s.status = .running) (h : s.loadByte s.pc = some 0x01) :
    step s = .next ((s.setIr 0x01).setStatus .halted) := by
  rw [step_of_fetch_run hs (fetch_halt h)]
  exact execHalt_eq _

theorem run_of_halted {s : State} (h : s.status = .halted) (k : Nat) : Host.Core.run core k s = .next s :=
  run_of_step_self (step_of_not_running (by simp [h])) k

/-- Settles O24: HALT's one write, the Step that fetches HALT, and the stopped machine after it. -/
theorem haltStopsInPlace : Obligations.HaltStopsInPlace :=
  ⟨rfl,
   fun s => ⟨s.setStatus .halted, execHalt_eq s, rfl, rfl, fun _ _ => ⟨rfl, rfl⟩, fun _ => rfl, rfl, rfl, rfl, rfl, rfl⟩,
   fun _ hs h => ⟨step_halt hs h, run_of_halted rfl⟩,
   fun _ hs h => step_of_fetch_stop hs (fetch_unwritten h)⟩

/-- After the first stall `ir` already holds the unknown opcode, so the next Step answers the state it starts from (R78). -/
theorem run_unknown_stall {s : State} {op : Byte} (hs : s.status = .running) (h : s.loadByte s.pc = some op)
    (hd : decodeOpcode s.params.notOpcode op = none) (hu : s.params.unknownOpcode = .stall) (k : Nat) :
    Host.Core.run core (k + 1) s = .next (s.setIr op) := by
  have hself : step (s.setIr op) = .next (s.setIr op) := step_unknown_stall (s := s.setIr op) hs h hd hu
  rw [run_succ_of_step (step_unknown_stall hs h hd hu)]
  exact run_of_step_self hself k

/-- Settles O36: the stall repeats itself, and the default policy raises DECODE at check C2. -/
theorem unknownOpcodeStallsForever : Obligations.UnknownOpcodeStallsForever := fun s b hs h hd => by
  cases hu : s.params.unknownOpcode with
  | stall => exact run_unknown_stall hs h hd hu
  | fault => exact step_unknown_fault hs h hd hu

end Sys2Proof.Machine
end

section
/-! PROOFS. The register and stack instructions: LOAD_IMMEDIATE, PRINT_REG, PUSH and POP (R80 to R83), after the shapes they share
with other instructions: the faults of an instruction that reads its one register, and the write of one register in place. -/

namespace Sys2Proof.Machine

open Sys2Proof.Claims

/-! ### The checks of a one-register instruction -/

theorem withOperand_of_ge {a : Byte} (h : 8 ≤ a.toNat) (s : State) (k : RegIndex → Byte → Result) :
    withOperand a s k = raise .regIndex (.number a.toNat) s :=
  withIndex_of_ge h s _

theorem withOperand_of_readable {i : RegIndex} {s : State} (h : Readable s i) (k : RegIndex → Byte → Result) :
    withOperand (regByte i) s k = k i (s.reg i) :=
  (withIndex_regByte i s _).trans (withReg_of_readable h _)

theorem withOperand_of_not_readable {i : RegIndex} {s : State} (h : ¬ Readable s i) (k : RegIndex → Byte → Result) :
    withOperand (regByte i) s k = raise .uninit (.reg i) s :=
  (withIndex_regByte i s _).trans (withReg_of_not_readable h _)

/-- An instruction that reads its one register and goes on at `pc + n` raises the faults of C5, C6 and C10 in that order (R70). -/
theorem oneOperand_faults {mk : Byte → Instr} {n : Nat} {k : State → RegIndex → Byte → Byte → Result}
    (hmk : ∀ (a : Byte) (s : State), exec (mk a) s = withOperand a s fun i x => withPcPlus n s (k s i x)) :
    FaultsOnIndex mk ∧ FaultsOnUnwritten mk ∧ FaultsPastTop mk n :=
  ⟨fun a s ha => (hmk a s).trans (withOperand_of_ge ha s _),
   fun _ s hi => (hmk _ s).trans (withOperand_of_not_readable hi _),
   fun _ s hi hp => (hmk _ s).trans ((withOperand_of_readable hi _).trans (withPcPlus_of_gt hp _))⟩

/-! ### Frames of register writes -/

/-- Writing a listed register keeps the frame. -/
theorem sameRegsBut_setReg {changed : List RegIndex} {s t : State} {i : RegIndex} (h : SameRegsBut changed s t)
    (hi : i ∈ changed) (v : Byte) : SameRegsBut changed s (t.setReg i v) := fun j hj => by
  have hji : j ≠ i := fun e => hj (e ▸ hi)
  rw [State.reg_setReg_other t v hji, State.isWritten_setReg_other t v hji]
  exact h j hj

theorem sameRegsBut_refl (changed : List RegIndex) (s : State) : SameRegsBut changed s s := fun _ _ => ⟨rfl, rfl⟩

/-- One register's write and the advance of the pc are all that `WritesInPlace` allows, and all that it asks. -/
theorem writesInPlace_setReg {s : State} {n : Nat} (hp : s.pc.toNat + n ≤ 255) (i : RegIndex) (v : Byte) :
    WritesInPlace (.next ((s.setReg i v).setPc (BitVec.ofNat 8 (s.pc.toNat + n)))) s i v.toNat n :=
  ⟨_, rfl, congrArg BitVec.toNat (State.reg_setReg_same s i v), State.isWritten_setReg_same s i v, pcPlus_toNat hp,
   sameRegsBut_setReg (sameRegsBut_refl _ s) (List.mem_singleton_self i) v, fun _ => rfl, rfl, rfl, rfl, rfl, rfl, rfl⟩

/-! ### LOAD_IMMEDIATE -/

theorem exec_loadImmediate {s : State} (hp : s.pc.toNat + 3 ≤ 255) (i : RegIndex) (imm : Byte) :
    exec (.loadImmediate (regByte i) imm) s = .next ((s.setReg i imm).setPc (BitVec.ofNat 8 (s.pc.toNat + 3))) :=
  (withIndex_regByte i s _).trans (withPcPlus_of_le hp _)

/-- Settles O13: C5, then C10, then the one register's write. -/
theorem loadImmediateStoresImmediate : Obligations.LoadImmediateStoresImmediate :=
  ⟨fun _ _ => rfl,
   fun i imm s hp => by
    rw [exec_loadImmediate hp]
    exact writesInPlace_setReg hp i imm,
   fun _ _ s ha => withIndex_of_ge ha s _,
   fun i _ s hp => (withIndex_regByte i s _).trans (withPcPlus_of_gt hp _)⟩

/-! ### PRINT_REG -/

theorem exec_printReg {s : State} {i : RegIndex} (hi : Readable s i) (hp : s.pc.toNat + 2 ≤ 255) :
    exec (.printReg (regByte i)) s = .next ((s.emit (s.reg i)).setPc (BitVec.ofNat 8 (s.pc.toNat + 2))) :=
  (withOperand_of_readable hi _).trans (withPcPlus_of_le hp _)

/-- Settles O14: the completed instruction emits one byte and advances the pc, which no other field sees. -/
theorem printRegEmitsRegister : Obligations.PrintRegEmitsRegister :=
  ⟨fun _ => rfl,
   fun _ _ hi hp => ⟨_, exec_printReg hi hp, rfl, pcPlus_toNat hp, sameRegsBut_refl _ _, fun _ => rfl, rfl, rfl, rfl, rfl, rfl⟩,
   oneOperand_faults fun _ _ => rfl⟩

/-! ### PUSH -/

/-- The state that a completed PUSH of register `i` leaves (R82). -/
def State.pushed (s : State) (i : RegIndex) : State :=
  (pushByte (fun s1 => s1.reg i) s).setPc (BitVec.ofNat 8 (s.pc.toNat + 2))

/-- The byte that it stores: R7 is read after it has moved (R72). -/
def State.pushedByte (s : State) (i : RegIndex) : Byte := if i = 7 then s.pushAddr else s.reg i

theorem exec_push {s : State} {i : RegIndex} (hi : Readable s i) (hp : s.pc.toNat + 2 ≤ 255) :
    exec (.push (regByte i)) s = .next (s.pushed i) :=
  (withOperand_of_readable hi _).trans (withPcPlus_of_le hp _)

theorem State.pushed_pc_toNat {s : State} (hp : s.pc.toNat + 2 ≤ 255) (i : RegIndex) :
    (s.pushed i).pc.toNat = s.pc.toNat + 2 := pcPlus_toNat hp

@[simp] theorem State.pushed_reg_seven (s : State) (i : RegIndex) : (s.pushed i).reg 7 = s.pushAddr :=
  State.reg_setReg_same s 7 s.pushAddr

theorem State.pushed_readByte (s : State) (i : RegIndex) :
    (s.pushed i).readByte s.pushAddr = some (s.pushedByte i) := by
  rw [State.pushedByte, ← State.reg_setReg s 7 i]
  exact State.readByte_writeByte_same (s.setReg 7 s.pushAddr) s.pushAddr _

theorem State.pushed_sameRegsBut (s : State) (i : RegIndex) : SameRegsBut [7] s (s.pushed i) :=
  sameRegsBut_setReg (sameRegsBut_refl _ s) (List.mem_singleton_self 7) s.pushAddr

theorem State.pushed_sameBytesBut (s : State) (i : RegIndex) : SameBytesBut s.pushAddr s (s.pushed i) := fun _ ha =>
  State.readByte_writeByte_other (s.setReg 7 s.pushAddr) _ ha

/-- Settles O15: what `State.pushed` holds at the stack pointer, at the cell below it, and everywhere else. -/
theorem pushStoresBelowStackPointer : Obligations.PushStoresBelowStackPointer :=
  ⟨fun _ => rfl,
   fun i s hi hp => ⟨s.pushed i, exec_push hi hp, s.pushAddr_toNat, s.pushed_readByte i, s.pushed_reg_seven i,
    State.pushed_pc_toNat hp i, s.pushed_sameRegsBut i, s.pushed_sameBytesBut i, rfl, rfl, rfl, rfl, rfl, rfl⟩,
   oneOperand_faults fun _ _ => rfl⟩

/-! ### POP -/

/-- The state that a completed POP of register `i` leaves, where the byte at the stack pointer loads as `v` (R83). -/
def State.popped (s : State) (i : RegIndex) (v : Byte) : State :=
  ((s.setReg i v).setReg 7 (s.setReg i v).popSp).setPc (BitVec.ofNat 8 (s.pc.toNat + 2))

theorem exec_pop {s : State} {v : Byte} (hv : s.loadByte (s.reg 7) = some v) (hp : s.pc.toNat + 2 ≤ 255) (i : RegIndex) :
    exec (.pop (regByte i)) s = .next (s.popped i v) :=
  (withIndex_regByte i s _).trans ((withStackByte_of_some hv _).trans (withPcPlus_of_le hp _))

theorem exec_pop_of_none {s : State} (hv : s.loadByte (s.reg 7) = none) (i : RegIndex) :
    exec (.pop (regByte i)) s = raise .uninit (.mem (s.reg 7)) s :=
  (withIndex_regByte i s _).trans (withStackByte_of_none hv _)

theorem exec_pop_of_gt {s : State} {v : Byte} (hv : s.loadByte (s.reg 7) = some v) (hp : 255 < s.pc.toNat + 2)
    (i : RegIndex) : exec (.pop (regByte i)) s = raise .address (.number 256) s :=
  (withIndex_regByte i s _).trans ((withStackByte_of_some hv _).trans (withPcPlus_of_gt hp _))

theorem State.popped_pc_toNat {s : State} (hp : s.pc.toNat + 2 ≤ 255) (i : RegIndex) (v : Byte) :
    (s.popped i v).pc.toNat = s.pc.toNat + 2 := pcPlus_toNat hp

/-- The register is written before the stack pointer is incremented (R72), so POP r7 increments the popped byte. -/
theorem State.popped_reg_seven_toNat (s : State) (i : RegIndex) (v : Byte) :
    ((s.popped i v).reg 7).toNat = ((if i = 7 then v else s.reg 7).toNat + 1) % 256 := by
  have h7 : (s.popped i v).reg 7 = (s.setReg i v).popSp := State.reg_setReg_same (s.setReg i v) 7 _
  rw [h7, State.popSp_toNat, State.reg_setReg]
  simp only [eq_comm (a := (7 : RegIndex))]

theorem State.popped_reg_same {i : RegIndex} (hi : i ≠ 7) (s : State) (v : Byte) : (s.popped i v).reg i = v :=
  (State.reg_setReg_other (s.setReg i v) _ hi).trans (State.reg_setReg_same s i v)

theorem State.popped_isWritten_same {i : RegIndex} (hi : i ≠ 7) (s : State) (v : Byte) :
    (s.popped i v).isWritten i = true :=
  (State.isWritten_setReg_other (s.setReg i v) (s.setReg i v).popSp hi).trans (State.isWritten_setReg_same s i v)

theorem State.popped_sameRegsBut (s : State) (i : RegIndex) (v : Byte) : SameRegsBut [i, 7] s (s.popped i v) :=
  sameRegsBut_setReg (sameRegsBut_setReg (sameRegsBut_refl _ s) (by simp) v) (by simp) (s.setReg i v).popSp

/-! ### PUSH then POP -/

/-- Decrementing the stack pointer and incrementing the result gives it back, across the wrap too (R44). -/
theorem State.pushAddr_succ_toNat (s : State) : (s.pushAddr.toNat + 1) % 256 = (s.reg 7).toNat := by
  have := (s.reg 7).isLt
  rw [State.pushAddr_toNat]
  omega

/-- The byte that a PUSH of register `i` has stored is the one that the next load at the stack pointer gives. -/
theorem State.pushed_loadByte (s : State) (i : RegIndex) :
    (s.pushed i).loadByte ((s.pushed i).reg 7) = some (s.pushedByte i) := by
  rw [State.pushed_reg_seven]
  exact State.loadByte_of_readByte (s.pushed_readByte i)

/-- PUSH r7 stores the decremented pointer and POP r7 increments what it loads, so R7 comes back on either path. -/
theorem State.popped_pushed_reg_seven (s : State) (i : RegIndex) :
    ((s.pushed i).popped i (s.pushedByte i)).reg 7 = s.reg 7 := by
  apply BitVec.eq_of_toNat_eq
  rw [State.popped_reg_seven_toNat, ← State.pushAddr_succ_toNat]
  by_cases h : i = 7 <;> simp [h, State.pushedByte]

theorem State.popped_pushed_reg (s : State) (i k : RegIndex) :
    ((s.pushed i).popped i (s.pushedByte i)).reg k = s.reg k := by
  by_cases h7 : k = 7
  · subst h7
    exact s.popped_pushed_reg_seven i
  · by_cases hi : k = i
    · subst hi
      rw [State.popped_reg_same h7, State.pushedByte, if_neg h7]
    · exact ((s.pushed i).popped_sameRegsBut i _ k (by simp [hi, h7])).1.trans
        (s.pushed_sameRegsBut i k (by simpa using h7)).1

theorem popUndoesPush : PopUndoesPush := fun i s hi hp => by
  have hp1 : s.pc.toNat + 2 ≤ 255 := by omega
  have hpc : (s.pushed i).pc.toNat = s.pc.toNat + 2 := State.pushed_pc_toNat hp1 i
  have hp2 : (s.pushed i).pc.toNat + 2 ≤ 255 := by omega
  refine ⟨_, _, exec_push hi hp1, exec_pop (s.pushed_loadByte i) hp2 i, s.popped_pushed_reg i, ?_⟩
  rw [State.popped_pc_toNat hp2, hpc]

/-- Settles O16: `State.popped` for another register and for R7, the checks C5, C9 and C10, and the pair with PUSH. -/
theorem popLoadsFromStackPointer : Obligations.PopLoadsFromStackPointer :=
  ⟨fun _ => rfl,
   fun i v s hv hp => ⟨s.popped i v, exec_pop hv hp i,
    fun h7 => ⟨State.popped_reg_same h7 s v, State.popped_isWritten_same h7 s v, by
      simpa [h7] using s.popped_reg_seven_toNat i v⟩,
    fun h7 => by simpa [h7] using s.popped_reg_seven_toNat i v,
    State.popped_pc_toNat hp i v, s.popped_sameRegsBut i v, fun _ => rfl, rfl, rfl, rfl, rfl, rfl, rfl⟩,
   fun _ s ha => withIndex_of_ge ha s _,
   fun i _ hv => exec_pop_of_none hv i,
   fun i _ _ hv hp => exec_pop_of_gt hv hp i,
   popUndoesPush⟩

end Sys2Proof.Machine
end

section
/-! PROOFS. Control transfer: CALL, RETURN, COMPARE and the three jumps (R87 to R92), after the shapes they share: the faults of an
instruction that reads one or two registers, the push of a byte, and a transfer that changes the pc alone. -/

namespace Sys2Proof.Machine

open Sys2Proof.Claims

/-! ### The checks C5 and C6 -/

/-- An instruction that reads its one register, whatever it does next, raises the faults of C5 and C6 in that order (R70). -/
theorem readsOperand_faults {mk : Byte → Instr} {k : State → RegIndex → Byte → Result}
    (hmk : ∀ (a : Byte) (s : State), exec (mk a) s = withOperand a s (k s)) :
    FaultsOnIndex mk ∧ FaultsOnUnwritten mk :=
  ⟨fun a s ha => (hmk a s).trans (withOperand_of_ge ha s _),
   fun _ s hi => (hmk _ s).trans (withOperand_of_not_readable hi _)⟩

theorem withOperands_of_ge_left {a : Byte} (h : 8 ≤ a.toNat) (b : Byte) (s : State)
    (k : RegIndex → RegIndex → Byte → Byte → Result) :
    withOperands a b s k = raise .regIndex (.number a.toNat) s :=
  withIndex_of_ge h s _

theorem withOperands_of_ge_right {b : Byte} (h : 8 ≤ b.toNat) (i : RegIndex) (s : State)
    (k : RegIndex → RegIndex → Byte → Byte → Result) :
    withOperands (regByte i) b s k = raise .regIndex (.number b.toNat) s :=
  (withIndex_regByte i s _).trans (withIndex_of_ge h s _)

/-- C5 passes on both operands that name registers. -/
theorem withOperands_regByte (i j : RegIndex) (s : State) (k : RegIndex → RegIndex → Byte → Byte → Result) :
    withOperands (regByte i) (regByte j) s k = withReg i s fun x => withReg j s fun y => k i j x y :=
  (withIndex_regByte i s _).trans (withIndex_regByte j s _)

theorem withOperands_of_not_readable_left {i : RegIndex} {s : State} (h : ¬ Readable s i) (j : RegIndex)
    (k : RegIndex → RegIndex → Byte → Byte → Result) :
    withOperands (regByte i) (regByte j) s k = raise .uninit (.reg i) s :=
  (withOperands_regByte i j s k).trans (withReg_of_not_readable h _)

theorem withOperands_of_not_readable_right {i j : RegIndex} {s : State} (hi : Readable s i) (hj : ¬ Readable s j)
    (k : RegIndex → RegIndex → Byte → Byte → Result) :
    withOperands (regByte i) (regByte j) s k = raise .uninit (.reg j) s :=
  (withOperands_regByte i j s k).trans ((withReg_of_readable hi _).trans (withReg_of_not_readable hj _))

theorem withOperands_of_readable {i j : RegIndex} {s : State} (hi : Readable s i) (hj : Readable s j)
    (k : RegIndex → RegIndex → Byte → Byte → Result) :
    withOperands (regByte i) (regByte j) s k = k i j (s.reg i) (s.reg j) :=
  (withOperands_regByte i j s k).trans ((withReg_of_readable hi _).trans (withReg_of_readable hj _))

/-- An instruction that reads two registers raises the faults of C5 on both before those of C6 on either (R70). -/
theorem readsOperands_faults {mk : Byte → Byte → Instr} {k : State → RegIndex → RegIndex → Byte → Byte → Result}
    (hmk : ∀ (a b : Byte) (s : State), exec (mk a b) s = withOperands a b s (k s)) : FaultsOnTwo mk :=
  ⟨fun a b s ha => (hmk a b s).trans (withOperands_of_ge_left ha b s _),
   fun i b s hb => (hmk _ b s).trans (withOperands_of_ge_right hb i s _),
   fun _ j s hi => (hmk _ _ s).trans (withOperands_of_not_readable_left hi j _),
   fun _ _ s hi hj => (hmk _ _ s).trans (withOperands_of_not_readable_right hi hj _)⟩

/-! ### A push of any byte -/

/-- Every register's read after a push (R44). -/
theorem pushByte_reg (v : State → Byte) (s : State) (k : RegIndex) :
    (pushByte v s).reg k = if k = 7 then s.pushAddr else s.reg k :=
  State.reg_setReg s 7 k s.pushAddr

theorem pushByte_readByte_same (v : State → Byte) (s : State) :
    (pushByte v s).readByte s.pushAddr = some (v (s.setReg 7 s.pushAddr)) :=
  State.readByte_writeByte_same (s.setReg 7 s.pushAddr) s.pushAddr _

theorem pushByte_sameRegsBut (v : State → Byte) (s : State) : SameRegsBut [7] s (pushByte v s) :=
  sameRegsBut_setReg (sameRegsBut_refl _ s) (List.mem_singleton_self 7) s.pushAddr

theorem pushByte_sameBytesBut (v : State → Byte) (s : State) : SameBytesBut s.pushAddr s (pushByte v s) := fun _ ha =>
  State.readByte_writeByte_other (s.setReg 7 s.pushAddr) _ ha

/-! ### CALL -/

/-- The byte that CALL pushes, whatever state a push would read it from: the return address (R87). -/
def State.returnAddress (s _ : State) : Byte := BitVec.ofNat 8 (s.pc.toNat + 2)

/-- The state after CALL's push, where the target is read (R72). -/
def State.pushedReturn (s : State) : State := pushByte s.returnAddress s

theorem exec_call {s : State} {i : RegIndex} (hi : Readable s i) (hp : s.pc.toNat + 2 ≤ 255) :
    exec (.call (regByte i)) s = .next (s.pushedReturn.setPc (s.pushedReturn.reg i)) :=
  (withOperand_of_readable hi _).trans (withPcPlus_of_le hp _)

theorem State.pushedReturn_readByte_toNat {s : State} (hp : s.pc.toNat + 2 ≤ 255) :
    (s.pushedReturn.readByte s.pushAddr).map BitVec.toNat = some (s.pc.toNat + 2) := by
  rw [State.pushedReturn, pushByte_readByte_same, Option.map_some, State.returnAddress, pcPlus_toNat hp]

/-- Settles O17: the push of the return address, then the transfer to a register read after it. -/
theorem callPushesReturnAddress : Obligations.CallPushesReturnAddress :=
  ⟨fun _ => rfl,
   fun i s hi hp => ⟨_, exec_call hi hp, s.pushAddr_toNat, State.pushedReturn_readByte_toNat hp,
    pushByte_reg s.returnAddress s 7, pushByte_reg s.returnAddress s i, pushByte_sameRegsBut s.returnAddress s,
    pushByte_sameBytesBut s.returnAddress s, rfl, rfl, rfl, rfl, rfl, rfl⟩,
   oneOperand_faults fun _ _ => rfl⟩

/-! ### RETURN -/

theorem exec_ret {s : State} {v : Byte} (hv : s.loadByte (s.reg 7) = some v) :
    exec .ret s = .next ((s.setReg 7 s.popSp).setPc v) :=
  withStackByte_of_some hv _

theorem exec_ret_of_none {s : State} (hv : s.loadByte (s.reg 7) = none) :
    exec .ret s = raise .uninit (.mem (s.reg 7)) s :=
  withStackByte_of_none hv _

theorem goesTo_setReg_setPc (s : State) (i : RegIndex) (v target : Byte) :
    GoesTo (.next ((s.setReg i v).setPc target)) s target [i] ((s.setReg i v).setPc target) :=
  ⟨rfl, rfl, sameRegsBut_setReg (sameRegsBut_refl _ s) (List.mem_singleton_self i) v, fun _ => rfl, rfl, rfl, rfl, rfl, rfl, rfl⟩

theorem setReg_popSp_reg_toNat (s : State) : ((s.setReg 7 s.popSp).reg 7).toNat = ((s.reg 7).toNat + 1) % 256 := by
  rw [State.reg_setReg_same, State.popSp_toNat]

/-- Settles O18: check C9 decides, and no other check can fail. -/
theorem returnPopsProgramCounter : Obligations.ReturnPopsProgramCounter :=
  ⟨rfl,
   fun v s hv => by
    rw [exec_ret hv]
    exact ⟨_, goesTo_setReg_setPc s 7 s.popSp v, setReg_popSp_reg_toNat s⟩,
   fun _ hv => exec_ret_of_none hv⟩

/-! ### COMPARE -/

theorem compareFlag_eq_less {x y : Byte} : compareFlag x y = .less ↔ x.toNat < y.toNat := by
  unfold compareFlag
  split_ifs with hlt hgt <;> simp [hlt]

theorem compareFlag_eq_greater {x y : Byte} : compareFlag x y = .greater ↔ y.toNat < x.toNat := by
  unfold compareFlag
  split_ifs with hlt hgt
  · simp [hlt.le]
  · simp [hgt]
  · simp [hgt]

theorem compareFlag_eq_equal {x y : Byte} : compareFlag x y = .equal ↔ x = y := by
  rw [← BitVec.toNat_inj]
  unfold compareFlag
  split_ifs with hlt hgt
  · simp [hlt.ne]
  · simp [hgt.ne']
  · simp [Nat.le_antisymm (not_lt.1 hgt) (not_lt.1 hlt)]

theorem exec_compare {s : State} {i j : RegIndex} (hi : Readable s i) (hj : Readable s j) (hp : s.pc.toNat + 3 ≤ 255) :
    exec (.compare (regByte i) (regByte j)) s =
      .next ((s.setFlag (compareFlag (s.reg i) (s.reg j))).setPc (BitVec.ofNat 8 (s.pc.toNat + 3))) :=
  (withOperands_of_readable hi hj _).trans (withPcPlus_of_le hp _)

theorem exec_compare_of_gt {s : State} {i j : RegIndex} (hi : Readable s i) (hj : Readable s j)
    (hp : 255 < s.pc.toNat + 3) : exec (.compare (regByte i) (regByte j)) s = raise .address (.number 256) s :=
  (withOperands_of_readable hi hj _).trans (withPcPlus_of_gt hp _)

/-- Settles O20: the flag is `compareFlag` of the two values, and only it and the pc are written. -/
theorem compareSetsFlag : Obligations.CompareSetsFlag :=
  ⟨fun _ _ => rfl,
   fun _ _ _ hi hj hp => ⟨_, exec_compare hi hj hp, compareFlag_eq_less, compareFlag_eq_greater, compareFlag_eq_equal,
    pcPlus_toNat hp, sameRegsBut_refl _ _, fun _ => rfl, rfl, rfl, rfl, rfl, rfl⟩,
   readsOperands_faults fun _ _ _ => rfl,
   fun _ _ _ hi hj hp => exec_compare_of_gt hi hj hp⟩

/-! ### Jumps -/

/-- A jump changes the pc and nothing else. -/
theorem goesTo_of_eq_setPc {r : Result} {s : State} {target : Byte} (h : r = .next (s.setPc target)) :
    ∃ t : State, GoesTo r s target [] t :=
  ⟨s.setPc target, h, rfl, sameRegsBut_refl _ s, fun _ => rfl, rfl, rfl, rfl, rfl, rfl, rfl⟩

theorem exec_jump {s : State} {i : RegIndex} (hi : Readable s i) :
    exec (.jump (regByte i)) s = .next (s.setPc (s.reg i)) :=
  withOperand_of_readable hi _

/-- Settles O23: C5 and C6 are the only checks of JUMP. -/
theorem jumpGoesToRegister : Obligations.JumpGoesToRegister :=
  ⟨fun _ => rfl, fun _ _ hi => goesTo_of_eq_setPc (exec_jump hi), readsOperand_faults fun _ _ => rfl⟩

theorem branch_taken (target : Byte) (s : State) : branch true target s = .next (s.setPc target) := rfl

theorem branch_not_taken (target : Byte) (s : State) :
    branch false target s = withPcPlus 2 s fun pc' => .next (s.setPc pc') := rfl

theorem branch_not_taken_of_le {s : State} (hp : s.pc.toNat + 2 ≤ 255) (target : Byte) :
    branch false target s = .next (s.setPc (BitVec.ofNat 8 (s.pc.toNat + 2))) :=
  (branch_not_taken target s).trans (withPcPlus_of_le hp _)

theorem branch_not_taken_of_gt {s : State} (hp : 255 < s.pc.toNat + 2) (target : Byte) :
    branch false target s = raise .address (.number 256) s :=
  (branch_not_taken target s).trans (withPcPlus_of_gt hp _)

/-! ### The conditional jumps

`taken` says, of whether the flag is EQUAL, whether the jump is taken: `id` for JUMP_IF_EQUAL, `not` for JUMP_IF_NOT_EQUAL. -/

/-- The meaning that the two conditional jumps share. -/
def conditionalJump (taken : Bool → Bool) (a : Byte) (s : State) : Result :=
  withOperand a s fun _ x => withFlagEqual s fun eq => branch (taken eq) x s

theorem exec_jumpIfEqual (a : Byte) (s : State) : exec (.jumpIfEqual a) s = conditionalJump id a s := rfl

theorem exec_jumpIfNotEqual (a : Byte) (s : State) : exec (.jumpIfNotEqual a) s = conditionalJump not a s := rfl

section
variable {s : State} {i : RegIndex} (hi : Readable s i) (taken : Bool → Bool)
include hi

theorem conditionalJump_of_equal (hf : s.flag = .equal) :
    conditionalJump taken (regByte i) s = branch (taken true) (s.reg i) s :=
  (withOperand_of_readable hi _).trans (withFlagEqual_equal hf _)

theorem conditionalJump_of_unequal (hf : s.flag = .greater ∨ s.flag = .less) :
    conditionalJump taken (regByte i) s = branch (taken false) (s.reg i) s :=
  (withOperand_of_readable hi _).trans (withFlagEqual_unequal hf _)

theorem conditionalJump_of_unset (hf : s.flag = .unset) :
    conditionalJump taken (regByte i) s = raise .uninit .flag s :=
  (withOperand_of_readable hi _).trans (withFlagEqual_unset hf _)

end

/-- Settles O21: EQUAL takes the branch, GREATER and LESS fall through, and UNSET faults. -/
theorem jumpIfEqualBranches : Obligations.JumpIfEqualBranches := by
  obtain ⟨hindex, hunwritten⟩ := readsOperand_faults exec_jumpIfEqual
  exact ⟨fun _ => rfl,
   fun _ s hi hf => goesTo_of_eq_setPc ((conditionalJump_of_equal hi id hf).trans (branch_taken _ s)),
   fun _ _ hi hf hp => goesTo_of_eq_setPc ((conditionalJump_of_unequal hi id hf).trans (branch_not_taken_of_le hp _)),
   hindex, hunwritten,
   fun _ _ hi hf => conditionalJump_of_unset hi id hf,
   fun _ _ hi hf hp => (conditionalJump_of_unequal hi id hf).trans (branch_not_taken_of_gt hp _)⟩

/-- Settles O22: GREATER and LESS take the branch, EQUAL falls through, and UNSET faults. -/
theorem jumpIfNotEqualBranches : Obligations.JumpIfNotEqualBranches := by
  obtain ⟨hindex, hunwritten⟩ := readsOperand_faults exec_jumpIfNotEqual
  exact ⟨fun _ => rfl,
   fun _ s hi hf => goesTo_of_eq_setPc ((conditionalJump_of_unequal hi not hf).trans (branch_taken _ s)),
   fun _ _ hi hf hp => goesTo_of_eq_setPc ((conditionalJump_of_equal hi not hf).trans (branch_not_taken_of_le hp _)),
   hindex, hunwritten,
   fun _ _ hi hf => conditionalJump_of_unset hi not hf,
   fun _ _ hi hf hp => (conditionalJump_of_equal hi not hf).trans (branch_not_taken_of_gt hp _)⟩

end Sys2Proof.Machine
end

section
/-! PROOFS. The ALU: R93's table, one lemma per tag, and the ten instructions that write its result in place (R94, R96 to R105). -/

namespace Sys2Proof.Machine

open Sys2Proof.Claims

/-! ### The ALU's table (R93) -/

theorem wrap8_natCast_toNat (n : Nat) : (wrap8 (n : Int)).toNat = n % 256 := by
  rw [wrap8_toNat]
  omega

theorem wrap8_natCast_toNat_of_lt {n : Nat} (h : n < 256) : (wrap8 (n : Int)).toNat = n :=
  (wrap8_natCast_toNat n).trans (Nat.mod_eq_of_lt h)

theorem aluNot_toNat (a : Byte) : (aluNot a).toNat = 255 - a.toNat := by
  have := a.isLt
  rw [aluNot, wrap8_toNat]
  omega

theorem alu_add_toNat (a b : Byte) : (alu .add a b).map BitVec.toNat = some ((a.toNat + b.toNat) % 256) :=
  congrArg some (wrap8_natCast_toNat (a.toNat + b.toNat))

theorem alu_sub_toNat (a b : Byte) : (alu .sub a b).map BitVec.toNat = some ((a.toNat + 256 - b.toNat) % 256) := by
  have := b.isLt
  rw [alu, Option.map_some, wrap8_toNat]
  congr 1
  omega

theorem alu_mul_toNat (a b : Byte) : (alu .mul a b).map BitVec.toNat = some ((a.toNat * b.toNat) % 256) :=
  congrArg some (wrap8_natCast_toNat (a.toNat * b.toNat))

theorem alu_div_zero (a : Byte) : alu .div a 0 = none := alu_eq_none.2 ⟨rfl, rfl⟩

theorem alu_div_toNat {b : Byte} (hb : b ≠ 0) (a : Byte) : (alu .div a b).map BitVec.toNat = some (a.toNat / b.toNat) := by
  rw [alu, if_neg hb, Option.map_some, wrap8_natCast_toNat_of_lt (Nat.div_lt_of_lt a.isLt)]

theorem alu_div_toNat_eq_ite (a b : Byte) :
    (alu .div a b).map BitVec.toNat = if b.toNat = 0 then none else some (a.toNat / b.toNat) := by
  by_cases hb : b = 0
  · subst hb
    rw [alu_div_zero]
    rfl
  · have hb' : b.toNat ≠ 0 := fun h => hb (BitVec.eq_of_toNat_eq h)
    rw [alu_div_toNat hb, if_neg hb']

theorem alu_and_toNat (a b : Byte) : (alu .and a b).map BitVec.toNat = some (a.toNat &&& b.toNat) :=
  congrArg some (BitVec.toNat_and a b)

theorem alu_or_toNat (a b : Byte) : (alu .or a b).map BitVec.toNat = some (a.toNat ||| b.toNat) :=
  congrArg some (BitVec.toNat_or a b)

theorem alu_xor_toNat (a b : Byte) : (alu .xor a b).map BitVec.toNat = some (a.toNat ^^^ b.toNat) :=
  congrArg some (BitVec.toNat_xor a b)

theorem alu_not_toNat (a b : Byte) : (alu .not a b).map BitVec.toNat = some (255 - a.toNat) :=
  congrArg some (aluNot_toNat a)

theorem alu_shl_toNat (a b : Byte) : (alu .shl a b).map BitVec.toNat = some ((a.toNat * 2 ^ b.toNat) % 256) := by
  rw [alu, Option.map_some, wrap8_natCast_toNat, Nat.shiftLeft_eq]

theorem alu_shr_toNat (a b : Byte) : (alu .shr a b).map BitVec.toNat = some (a.toNat / 2 ^ b.toNat) := by
  rw [alu, Option.map_some, Nat.shiftRight_eq_div_pow, wrap8_natCast_toNat_of_lt (Nat.div_lt_of_lt a.isLt)]

/-- An ALU result is known by its number. -/
theorem eq_some_of_map_toNat {r : Option Byte} {v : Byte} (h : r.map BitVec.toNat = some v.toNat) : r = some v :=
  Option.map_injective (fun _ _ => BitVec.eq_of_toNat_eq) h

/-- The amount is not reduced modulo 8: from 8 on, 2 to the amount is a multiple of 256. -/
theorem alu_shl_of_ge {b : Byte} (hb : 8 ≤ b.toNat) (a : Byte) : alu .shl a b = some 0 := by
  have hdvd : 256 ∣ a.toNat * 2 ^ b.toNat := Dvd.dvd.mul_left (pow_dvd_pow 2 hb) _
  exact eq_some_of_map_toNat ((alu_shl_toNat a b).trans (congrArg some (Nat.mod_eq_zero_of_dvd hdvd)))

/-- From an amount of 8 on, 2 to the amount exceeds every byte. -/
theorem alu_shr_of_ge {b : Byte} (hb : 8 ≤ b.toNat) (a : Byte) : alu .shr a b = some 0 := by
  have hlt : a.toNat < 2 ^ b.toNat := a.isLt.trans_le (Nat.pow_le_pow_right (by decide) hb)
  exact eq_some_of_map_toNat ((alu_shr_toNat a b).trans (congrArg some (Nat.div_eq_of_lt hlt)))

/-- Settles O11, one row of the table after the other. -/
theorem aluFollowsItsTable : Obligations.AluFollowsItsTable := fun a b =>
  ⟨alu_add_toNat a b, alu_sub_toNat a b, alu_mul_toNat a b, alu_div_toNat_eq_ite a b, alu_and_toNat a b, alu_or_toNat a b,
   alu_xor_toNat a b, alu_not_toNat a b, alu_shl_toNat a b, alu_shr_toNat a b,
   fun hb => ⟨alu_shl_of_ge hb a, alu_shr_of_ge hb a⟩⟩

/-! ### The two-register shape (R94), where both registers are readable -/

section
variable {op : AluOp} {s : State} {i j : RegIndex} (hi : Readable s i) (hj : Readable s j)
include hi hj

/-- C8 comes before C10. -/
theorem aluTwo_of_none (hv : alu op (s.reg i) (s.reg j) = none) :
    aluTwo op (regByte i) (regByte j) s = raise .divZero (.number j.val) s := by
  rw [aluTwo, withOperands_of_readable hi hj, hv]

theorem aluTwo_of_some {v : Byte} (hv : alu op (s.reg i) (s.reg j) = some v) :
    aluTwo op (regByte i) (regByte j) s = withPcPlus 3 s fun pc' => .next ((s.setReg i v).setPc pc') := by
  rw [aluTwo, withOperands_of_readable hi hj, hv]

theorem aluTwo_of_gt {n : Nat} (hn : (alu op (s.reg i) (s.reg j)).map BitVec.toNat = some n)
    (hp : 255 < s.pc.toNat + 3) : aluTwo op (regByte i) (regByte j) s = raise .address (.number 256) s := by
  obtain ⟨v, hv, -⟩ := Option.map_eq_some_iff.1 hn
  exact (aluTwo_of_some hi hj hv).trans (withPcPlus_of_gt hp _)

theorem aluTwo_writesInPlace {n : Nat} (hn : (alu op (s.reg i) (s.reg j)).map BitVec.toNat = some n)
    (hp : s.pc.toNat + 3 ≤ 255) : WritesInPlace (aluTwo op (regByte i) (regByte j) s) s i n 3 := by
  obtain ⟨v, hv, rfl⟩ := Option.map_eq_some_iff.1 hn
  rw [aluTwo_of_some hi hj hv, withPcPlus_of_le hp]
  exact writesInPlace_setReg hp i v

end

theorem aluTwo_faults {op : AluOp} {mk : Byte → Byte → Instr}
    (hmk : ∀ (a b : Byte) (s : State), exec (mk a b) s = aluTwo op a b s) : FaultsOnTwo mk :=
  readsOperands_faults hmk

/-- An instruction of the shape obeys the whole rule for `f` where `f` is its row of R93's table. -/
theorem aluTwoRule_of_alu {op : AluOp} {mk : Byte → Byte → Instr} {opcode : Byte} {f : Nat → Nat → Nat}
    (henc : ∀ a b : Byte, encode (mk a b) = [opcode, a, b])
    (hmk : ∀ (a b : Byte) (s : State), exec (mk a b) s = aluTwo op a b s)
    (halu : ∀ x y : Byte, (alu op x y).map BitVec.toNat = some (f x.toNat y.toNat)) : AluTwoRule mk opcode f :=
  ⟨henc,
   fun _ _ _ hi hj hp => by
    rw [hmk]
    exact aluTwo_writesInPlace hi hj (halu _ _) hp,
   aluTwo_faults hmk,
   fun _ _ s hi hj hp => (hmk _ _ s).trans (aluTwo_of_gt hi hj (halu _ _) hp)⟩

/-! ### The two-register instructions -/

/-- Settles O1: ADD's row of R93 in the two-register shape. -/
theorem addWritesSumModulo256 : Obligations.AddWritesSumModulo256 :=
  aluTwoRule_of_alu (fun _ _ => rfl) (fun _ _ _ => rfl) alu_add_toNat

/-- Settles O2: SUB's row; the sum with 256 keeps the difference a natural number. -/
theorem subWritesDifferenceModulo256 : Obligations.SubWritesDifferenceModulo256 :=
  aluTwoRule_of_alu (fun _ _ => rfl) (fun _ _ _ => rfl) alu_sub_toNat

/-- Settles O3: MUL's row. -/
theorem mulWritesLowByteOfProduct : Obligations.MulWritesLowByteOfProduct :=
  aluTwoRule_of_alu (fun _ _ => rfl) (fun _ _ _ => rfl) alu_mul_toNat

theorem exec_div (a b : Byte) (s : State) : exec (.div a b) s = aluTwo .div a b s := rfl

/-- Settles O4: the ALU's answer for a zero divisor is C8's fault, and for any other divisor the quotient. -/
theorem divWritesQuotientOrFaults : Obligations.DivWritesQuotientOrFaults :=
  ⟨fun _ _ => rfl,
   fun _ _ _ hi hj h0 hp => aluTwo_writesInPlace hi hj (alu_div_toNat h0 _) hp,
   aluTwo_faults exec_div,
   fun _ _ _ hi hj h0 => aluTwo_of_none hi hj (alu_eq_none.2 ⟨rfl, h0⟩),
   fun _ _ _ hi hj h0 hp => aluTwo_of_gt hi hj (alu_div_toNat h0 _) hp⟩

/-- Settles O5: AND's row. -/
theorem andWritesBitwiseAnd : Obligations.AndWritesBitwiseAnd :=
  aluTwoRule_of_alu (fun _ _ => rfl) (fun _ _ _ => rfl) alu_and_toNat

/-- Settles O6: OR's row. -/
theorem orWritesBitwiseOr : Obligations.OrWritesBitwiseOr :=
  aluTwoRule_of_alu (fun _ _ => rfl) (fun _ _ _ => rfl) alu_or_toNat

/-- Settles O7: XOR's row. -/
theorem xorWritesBitwiseXor : Obligations.XorWritesBitwiseXor :=
  aluTwoRule_of_alu (fun _ _ => rfl) (fun _ _ _ => rfl) alu_xor_toNat

/-- Settles O9: SHL's row, where the shift is a product by a power of 2. -/
theorem shlWritesShiftedLeft : Obligations.ShlWritesShiftedLeft :=
  aluTwoRule_of_alu (fun _ _ => rfl) (fun _ _ _ => rfl) alu_shl_toNat

/-- Settles O10: SHR's row, where the shift is a quotient by a power of 2. -/
theorem shrWritesShiftedRight : Obligations.ShrWritesShiftedRight :=
  aluTwoRule_of_alu (fun _ _ => rfl) (fun _ _ _ => rfl) alu_shr_toNat

/-! ### NOT (R103) -/

theorem exec_not {s : State} {i : RegIndex} (hi : Readable s i) (hp : s.pc.toNat + 2 ≤ 255) :
    exec (.not (regByte i)) s =
      .next ((s.setReg i (aluNot (s.reg i))).setPc (BitVec.ofNat 8 (s.pc.toNat + 2))) :=
  (withOperand_of_readable hi _).trans (withPcPlus_of_le hp _)

/-- Settles O8: the one-register shape with `aluNot` as its result. -/
theorem notWritesComplement : Obligations.NotWritesComplement :=
  ⟨fun _ => rfl, fun n => by cases n <;> rfl,
   fun i s hi hp => by
    rw [exec_not hi hp, ← aluNot_toNat]
    exact writesInPlace_setReg hp i _,
   oneOperand_faults fun _ _ => rfl⟩

end Sys2Proof.Machine
end

section
/-! PROOFS. Reset and the load of an image (R124, R125): what a read of memory gives after each, and the first Step when nothing was
loaded. -/

namespace Sys2Proof.Machine

open Sys2Proof.Claims

/-! ### The reset state (R34, R124) -/

theorem State.resetWith_isWritten (p : Params) (i : RegIndex) : (State.resetWith p).isWritten i = true ↔ i = 7 := by
  have hreset : ∀ j : RegIndex, State.reset.isWritten j = true ↔ j = 7 := by decide
  exact hreset i

@[simp] theorem State.resetWith_reg_seven (p : Params) : (State.resetWith p).reg 7 = 0xF4 := rfl

@[simp] theorem State.resetWith_readByte (p : Params) (a : Byte) : (State.resetWith p).readByte a = none := rfl

theorem resetWith_hasResetValues (p : Params) : HasResetValues (State.resetWith p) :=
  ⟨State.resetWith_isWritten p, State.resetWith_reg_seven p, State.resetWith_pc p, rfl, State.resetWith_status p, rfl,
   State.resetWith_readByte p⟩

/-- Settles O49: Reset's state depends on the parameters alone, and for all of them it has R34's values. -/
theorem resetLeavesResetState : Obligations.ResetLeavesResetState :=
  ⟨resetWith_hasResetValues .standard, fun s => ⟨s.applyReset, rfl, resetWith_hasResetValues s.params⟩⟩

/-! ### The load of an image (R125) -/

/-- The state after the load of an image, which only memory shows. -/
def State.loaded (s : State) (image : List Byte) : State := { s with mem := s.mem.writeFrom 0 image }

theorem loadImage_of_le {s : State} {image : List Byte} (hs : s.status = .idle) (h : image.length ≤ 256) :
    loadImage image s = .next (s.loaded image) :=
  (if_pos hs).trans (if_pos h)

theorem State.loaded_readByte_inside {image : List Byte} (hlen : image.length ≤ 256) (s : State) {k : Nat}
    (h : k < image.length) : (s.loaded image).readByte (BitVec.ofNat 8 k) = some image[k] := by
  have hk : (BitVec.ofNat 8 k).toNat = 0 + k :=
    (Nat.mod_eq_of_lt (by omega)).trans (Nat.zero_add k).symm
  rw [State.readByte, hk]
  exact Memory.read_writeFrom_inside h

theorem State.loaded_readByte_above {image : List Byte} {a : Byte} (h : image.length ≤ a.toNat) (s : State) :
    (s.loaded image).readByte a = s.readByte a :=
  Memory.read_writeFrom_above ((Nat.zero_add _).trans_le h)

/-! ### The first Step -/

theorem applyStart_of_idle {s : State} (h : s.status = .idle) : s.applyStart = s.setStatus .running := by
  simp [State.applyStart, h]

theorem step_unwritten {s : State} (hs : s.status = .running) (h : s.loadByte s.pc = none) :
    step s = .next (takeFault .uninit (.mem s.pc) s) :=
  step_of_fetch_stop hs (fetch_unwritten h)

/-- With nothing loaded, check C1 fails at address 0 in every machine whose UNINIT_POLICY is FAULT. -/
theorem step_applyStart_resetWith {p : Params} (hp : p.uninit = .fault) :
    step (State.resetWith p).applyStart = .next (takeFault .uninit (.mem 0) (State.resetWith p).applyStart) := by
  rw [applyStart_of_idle (State.resetWith_status p)]
  exact step_unwritten rfl (State.loadByte_eq_none.2 ⟨State.resetWith_readByte p 0, hp⟩)

/-- Settles O50: the image's cells, the cells from N on, the frame, and the first Step of the empty machine. -/
theorem loadPlacesImage : Obligations.LoadPlacesImage :=
  ⟨fun image s hs hlen =>
    ⟨s.loaded image, loadImage_of_le hs hlen, fun _ => State.loaded_readByte_inside hlen s,
     fun _ h => State.loaded_readByte_above h s, rfl⟩,
   step_applyStart_resetWith rfl⟩

end Sys2Proof.Machine
end

section
/-! PROOFS. The decoder against the encoder: what `decode` answers, said once as an equivalence with `encode`; both round trips
(R52 to R54, R57, R60 to R63); and the Step that fetches what it decodes (R67, R68). -/

namespace Sys2Proof

/-- Every instruction is a row of R57 with its operand bytes. -/
theorem Instr.exists_build (i : Instr) : ∃ (o : Op) (a b : Byte), i = o.build a b := by
  cases i with
  | halt => exact ⟨.halt, 0, 0, rfl⟩
  | ret => exact ⟨.ret, 0, 0, rfl⟩
  | push a => exact ⟨.push, a, 0, rfl⟩
  | pop a => exact ⟨.pop, a, 0, rfl⟩
  | printReg a => exact ⟨.printReg, a, 0, rfl⟩
  | call a => exact ⟨.call, a, 0, rfl⟩
  | jump a => exact ⟨.jump, a, 0, rfl⟩
  | jumpIfEqual a => exact ⟨.jumpIfEqual, a, 0, rfl⟩
  | jumpIfNotEqual a => exact ⟨.jumpIfNotEqual, a, 0, rfl⟩
  | not a => exact ⟨.not, a, 0, rfl⟩
  | loadImmediate a imm => exact ⟨.loadImmediate, a, imm, rfl⟩
  | add a b => exact ⟨.add, a, b, rfl⟩
  | sub a b => exact ⟨.sub, a, b, rfl⟩
  | mul a b => exact ⟨.mul, a, b, rfl⟩
  | div a b => exact ⟨.div, a, b, rfl⟩
  | compare a b => exact ⟨.compare, a, b, rfl⟩
  | and a b => exact ⟨.and, a, b, rfl⟩
  | or a b => exact ⟨.or, a, b, rfl⟩
  | xor a b => exact ⟨.xor, a, b, rfl⟩
  | shl a b => exact ⟨.shl, a, b, rfl⟩
  | shr a b => exact ⟨.shr, a, b, rfl⟩

/-- `encode`'s table, written apart from the decoder's, has the opcode of the row and as many operand bytes as its format. -/
theorem encode_build (o : Op) (a b : Byte) :
    encode (o.build a b) = o.opcode :: [a, b].take o.format.operands := by
  cases o <;> rfl

theorem Op.build_eq_not {o : Op} {a b c : Byte} (h : o.build a b = .not c) : o = .not := by
  cases o <;> simp [Op.build] at h ⊢

/-- NOT alone can lack an encoding (R60), said of a row or of its instructions. -/
theorem build_ne_not_iff {o : Op} {a b : Byte} : (∀ c : Byte, o.build a b ≠ .not c) ↔ o ≠ .not :=
  ⟨fun h ho => h a (by rw [ho]; rfl), fun h _ hb => h (Op.build_eq_not hb)⟩

/-! ### `decode`, by the operand count of the row that the opcode selects -/

section
variable {n : NotOpcode} {op : Byte} {o : Op} (hd : decodeOpcode n op = some o)
include hd

theorem decode_of_no_operands (ho : o.format.operands = 0) (rest : List Byte) :
    decode n (op :: rest) = .ok (o.build 0 0) rest := by
  simp [decode, hd, ho]

theorem decode_of_one_operand (ho : o.format.operands = 1) (a : Byte) (rest : List Byte) :
    decode n (op :: a :: rest) = .ok (o.build a 0) rest := by
  simp [decode, hd, ho]

theorem decode_of_two_operands (ho : o.format.operands = 2) (a b : Byte) (rest : List Byte) :
    decode n (op :: a :: b :: rest) = .ok (o.build a b) rest := by
  simp [decode, hd, ho]

theorem decode_take (a b : Byte) (rest : List Byte) :
    decode n (op :: ([a, b].take o.format.operands ++ rest)) = .ok (o.build a b) rest := by
  rcases Format.operands_cases o.format with ho | ho | ho
  · rw [ho, Op.build_of_no_operands ho a b 0 0]; exact decode_of_no_operands hd ho rest
  · rw [ho, Op.build_of_one_operand ho a b 0]; exact decode_of_one_operand hd ho a rest
  · rw [ho]; exact decode_of_two_operands hd ho a b rest

end

/-- All that `decode` can answer with an instruction. -/
theorem decode_inv {n : NotOpcode} {bytes rest : List Byte} {i : Instr} (h : decode n bytes = .ok i rest) :
    ∃ (op : Byte) (o : Op) (a b : Byte), decodeOpcode n op = some o ∧ i = o.build a b ∧
      bytes = op :: ([a, b].take o.format.operands ++ rest) := by
  cases bytes with
  | nil => cases h
  | cons op tail =>
    cases hd : decodeOpcode n op with
    | none => simp [decode, hd] at h
    | some o =>
      refine ⟨op, o, ?_⟩
      simp only [decode, hd] at h
      rcases Format.operands_cases o.format with ho | ho | ho <;> rw [ho] at h ⊢
      · cases h; exact ⟨0, 0, hd, rfl, rfl⟩
      · cases tail with
        | nil => cases h
        | cons a tail => cases h; exact ⟨a, 0, hd, rfl, rfl⟩
      · cases tail with
        | nil => cases h
        | cons a tail =>
          cases tail with
          | nil => cases h
          | cons b tail => cases h; exact ⟨a, b, hd, rfl, rfl⟩

/-- `decode` answers an instruction exactly on its encoding, where it has one: neither side can be ambiguous (R52, R63). -/
theorem decode_eq_ok {n : NotOpcode} {i : Instr} {bytes rest : List Byte} :
    decode n bytes = .ok i rest ↔ bytes = encode i ++ rest ∧ (n = .x69 ∨ ∀ a : Byte, i ≠ .not a) := by
  constructor
  · intro h
    obtain ⟨op, o, a, b, hd, rfl, rfl⟩ := decode_inv h
    obtain ⟨rfl, hn⟩ := decodeOpcode_eq_some.1 hd
    rw [encode_build, build_ne_not_iff]
    exact ⟨rfl, hn⟩
  · rintro ⟨rfl, hn⟩
    obtain ⟨o, a, b, rfl⟩ := i.exists_build
    rw [build_ne_not_iff] at hn
    rw [encode_build]
    exact decode_take (decodeOpcode_eq_some.2 ⟨rfl, hn⟩) a b rest

/-- Settles O25: `decode_eq_ok`, from the encoding to the answer. -/
theorem decodeOfEncode : Obligations.DecodeOfEncode := fun _ _ _ hn => decode_eq_ok.2 ⟨rfl, hn⟩

/-- Settles O26: `decode_eq_ok`, from the answer to the encoding. -/
theorem encodeOfDecode : Obligations.EncodeOfDecode := fun _ _ _ _ h => decode_eq_ok.1 h

/-! ### The opcode table -/

/-- A table word's bytes begin with the encoding of the instruction that it stands for; the rest is not looked at. -/
theorem decodeTableWord_of_tableBytes {nbits w : Nat} {i : Instr} {rest : List Byte} (h : tableBytes nbits w = encode i ++ rest) :
    decodeTableWord nbits w = some i := by
  have hd : decode Params.standard.notOpcode (tableBytes nbits w) = .ok i rest := decode_eq_ok.2 ⟨h, .inl rfl⟩
  rw [decodeTableWord, hd]

/-- Settles O27: each word's bytes are the instruction's encoding, then zeros. -/
theorem tableWordsDecode : Obligations.TableWordsDecode :=
  ⟨decodeTableWord_of_tableBytes (rest := [0, 0]) rfl, decodeTableWord_of_tableBytes (rest := [0]) rfl,
   decodeTableWord_of_tableBytes (rest := []) rfl, decodeTableWord_of_tableBytes (rest := []) rfl⟩

/-- Settles O28, row by row of R57. -/
theorem opcodeBitsFollowLayout : Obligations.OpcodeBitsFollowLayout := fun o => by
  cases o <;> decide

/-! ### The Step -/

namespace Machine

/-- The operand fetch where check C4 passes on every operand byte that the row has. -/
theorem fetchOperands_of_loads {s : State} {o : Op} {a b : Byte} (ha : 1 ≤ o.format.operands → s.loadByte (s.pc + 1) = some a)
    (hb : o.format.operands = 2 → s.loadByte (s.pc + 2) = some b) : fetchOperands o s = .run (o.build a b) s := by
  unfold fetchOperands
  rcases Format.operands_cases o.format with ho | ho | ho
  · rw [ho, Op.build_of_no_operands ho a b 0 0]; rfl
  · rw [ho, ha ho.ge, Op.build_of_one_operand ho a b 0]; rfl
  · rw [ho, ha (by omega), hb ho]; rfl

/-- Settles O30: the bytes are the encoding of a row of R57, which C1 to C4 let through. -/
theorem stepRunsDecodedInstruction : Obligations.StepRunsDecodedInstruction := fun s i op operands hs hdec hp hbytes => by
  obtain ⟨op', o, a, b, hd, rfl, heq⟩ := decode_inv hdec
  obtain ⟨rfl, rfl⟩ : op = op' ∧ operands = [a, b].take o.format.operands := by simpa using heq
  have hlen : ([a, b].take o.format.operands).length = o.format.operands := by
    rcases Format.operands_cases o.format with ho | ho | ho <;> rw [ho] <;> rfl
  rw [hlen] at hp
  have hload (k : Nat) (hk : k < [op, a, b].length) (hk' : k ≤ o.format.operands) :
      s.loadByte (operandAddr s k) = some [op, a, b][k] := by
    simpa only [operandAddr, ← List.take_succ_cons, List.getElem_take] using
      hbytes k (by rw [List.length_cons, hlen]; omega)
  have hop : s.loadByte s.pc = some op := by simpa [operandAddr] using hload 0 (by simp) (by omega)
  have ha (h : 1 ≤ o.format.operands) : s.loadByte (s.pc + 1) = some a := operandAddr_one s ▸ hload 1 (by simp) h
  have hb (h : o.format.operands = 2) : s.loadByte (s.pc + 2) = some b := operandAddr_two s ▸ hload 2 (by simp) h.ge
  have hfetch : fetch s = .run (o.build a b) (s.setIr op) := by
    rw [fetch_known hop hd (by rw [Op.length]; omega)]
    exact fetchOperands_of_loads ha hb
  exact step_of_fetch_run hs hfetch

end Machine
end Sys2Proof
end

section
/-! PROOFS. What an instruction and a Step can do, said once: a fault on a true ground, a stall, or a commit with the frame
`Commits`. The whole-machine rules on registers, memory, the flag and the fault record follow from it. -/

namespace Sys2Proof.Machine

/-! ### The commit of an instruction -/

/-- What the completed instruction `i` may have done to `s` to reach `t`. A field that only some rows of R57 may change is tied to
their opcodes, the first byte of the encoding. The flag and the output may change at COMPARE and PRINT_REG alone (R23, R32), and
memory at PUSH and CALL alone (R36). -/
structure Commits (i : Instr) (s t : State) : Prop where
  params : t.params = s.params
  ir     : t.ir = s.ir
  status : t.status = statusAfter i s
  regs   : SameRegsBut (regsWritten i) s t
  flag   : t.flag = s.flag ∨ (encode i).head? = some 0xA7 ∧ t.flag ≠ .unset
  output : t.output = s.output ∨ (encode i).head? = some 0x47 ∧ ∃ r : RegIndex, t.output = s.output ++ [s.reg r]
  mem    : t.mem = s.mem ∨ ((encode i).head? = some 0x45 ∨ (encode i).head? = some 0x50) ∧
    ∃ v : Byte, t.mem = s.mem.write s.pushAddr.toNat v

section
variable {i : Instr} {s : State} (hst : statusAfter i s = s.status)
include hst

theorem commits_setPc (p : Byte) : Commits i s (s.setPc p) :=
  ⟨rfl, rfl, hst.symm, sameRegsBut_refl _ s, .inl rfl, .inl rfl, .inl rfl⟩

theorem commits_setReg_setPc {r : RegIndex} (hr : r ∈ regsWritten i) (v p : Byte) : Commits i s ((s.setReg r v).setPc p) :=
  ⟨rfl, rfl, hst.symm, sameRegsBut_setReg (sameRegsBut_refl _ s) hr v, .inl rfl, .inl rfl, .inl rfl⟩

theorem commits_pushByte_setPc (hr : 7 ∈ regsWritten i)
    (hop : (encode i).head? = some 0x45 ∨ (encode i).head? = some 0x50) (v : State → Byte) (p : Byte) :
    Commits i s ((pushByte v s).setPc p) :=
  ⟨rfl, rfl, hst.symm, sameRegsBut_setReg (sameRegsBut_refl _ s) hr s.pushAddr, .inl rfl, .inl rfl, .inr ⟨hop, _, rfl⟩⟩

end

/-- The outcome of an instruction: a fault on a true ground, or a commit. -/
def Answers (i : Instr) (s : State) (r : Result) : Prop := (∃ t : State, r = .next t ∧ Commits i s t) ∨ Faults r s

theorem aluTwo_answers {i : Instr} {s : State} (op : AluOp) (a b : Byte) (hst : statusAfter i s = s.status)
    (hw : regsWritten i = named a) : Answers i s (aluTwo op a b s) := by
  refine (aluTwo_inv op a b s).imp_left ?_
  rintro ⟨r, _, v, rfl, -, -, -, h⟩
  exact ⟨_, h, commits_setReg_setPc hst (by simp [hw]) v _⟩

theorem compareFlag_ne_unset (x y : Byte) : compareFlag x y ≠ .unset := by
  unfold compareFlag
  split_ifs <;> decide

theorem exec_answers (i : Instr) (s : State) : Answers i s (exec i s) := by
  cases i with
  | halt => exact .inl ⟨_, rfl, rfl, rfl, rfl, sameRegsBut_refl _ s, .inl rfl, .inl rfl, .inl rfl⟩
  | ret =>
    refine (execRet_inv s).imp_left ?_
    rintro ⟨v, -, h⟩
    exact ⟨_, h, commits_setReg_setPc rfl (List.mem_singleton_self 7) _ v⟩
  | push a =>
    refine (execPush_inv a s).imp_left ?_
    rintro ⟨r, -, -, h⟩
    exact ⟨_, h, commits_pushByte_setPc rfl (List.mem_singleton_self 7) (.inl rfl) _ _⟩
  | pop a =>
    refine (execPop_inv a s).imp_left ?_
    rintro ⟨r, v, rfl, -, -, h⟩
    refine ⟨_, h, rfl, rfl, rfl, ?_, .inl rfl, .inl rfl, .inl rfl⟩
    rw [regsWritten, named_regByte]
    exact s.popped_sameRegsBut r v
  | printReg a =>
    refine (execPrintReg_inv a s).imp_left ?_
    rintro ⟨r, -, -, h⟩
    exact ⟨_, h, rfl, rfl, rfl, sameRegsBut_refl _ s, .inl rfl, .inr ⟨rfl, r, rfl⟩, .inl rfl⟩
  | call a =>
    refine (execCall_inv a s).imp_left ?_
    rintro ⟨r, -, -, h⟩
    exact ⟨_, h, commits_pushByte_setPc rfl (List.mem_singleton_self 7) (.inr rfl) _ _⟩
  | jump a =>
    refine (execJump_inv a s).imp_left ?_
    rintro ⟨r, -, h⟩
    exact ⟨_, h, commits_setPc rfl _⟩
  | jumpIfEqual a =>
    refine (execJumpIfEqual_inv a s).imp_left ?_
    rintro ⟨p, h⟩
    exact ⟨_, h, commits_setPc rfl p⟩
  | jumpIfNotEqual a =>
    refine (execJumpIfNotEqual_inv a s).imp_left ?_
    rintro ⟨p, h⟩
    exact ⟨_, h, commits_setPc rfl p⟩
  | not a =>
    refine (execNot_inv a s).imp_left ?_
    rintro ⟨r, rfl, -, h⟩
    exact ⟨_, h, commits_setReg_setPc rfl (by simp [regsWritten]) _ _⟩
  | loadImmediate a imm =>
    refine (execLoadImmediate_inv a imm s).imp_left ?_
    rintro ⟨r, rfl, -, h⟩
    exact ⟨_, h, commits_setReg_setPc rfl (by simp [regsWritten]) imm _⟩
  | compare a b =>
    refine (execCompare_inv a b s).imp_left ?_
    rintro ⟨r, r', -, -, -, h⟩
    exact ⟨_, h, rfl, rfl, rfl, sameRegsBut_refl _ s, .inr ⟨rfl, compareFlag_ne_unset _ _⟩, .inl rfl, .inl rfl⟩
  | add a b => exact aluTwo_answers .add a b rfl rfl
  | sub a b => exact aluTwo_answers .sub a b rfl rfl
  | mul a b => exact aluTwo_answers .mul a b rfl rfl
  | div a b => exact aluTwo_answers .div a b rfl rfl
  | and a b => exact aluTwo_answers .and a b rfl rfl
  | or a b => exact aluTwo_answers .or a b rfl rfl
  | xor a b => exact aluTwo_answers .xor a b rfl rfl
  | shl a b => exact aluTwo_answers .shl a b rfl rfl
  | shr a b => exact aluTwo_answers .shr a b rfl rfl

theorem exec_inv {i : Instr} {s t : State} (h : exec i s = .next t) :
    Commits i s t ∨ ∃ (c : Cause) (n : FaultInfo), t = takeFault c n s ∧ FaultGround s c n := by
  rcases exec_answers i s with ⟨u, hu, hc⟩ | ⟨c, n, hu, hg⟩ <;> obtain rfl := Host.Outcome.next.inj (h.symm.trans hu)
  · exact .inl hc
  · exact .inr ⟨c, n, rfl, hg⟩

/-- Settles O39: a fault writes no register, and a commit those of the column. -/
theorem onlyTabledRegistersAreWritten : Obligations.OnlyTabledRegistersAreWritten := fun i s t h => by
  rcases exec_inv h with hc | ⟨c, n, rfl, -⟩
  · exact hc.regs
  · exact sameRegsBut_refl _ s

/-- Settles O33: both answers of `execFault`, as `exec_checked` holds the meaning against them. -/
theorem execTakesFirstFailingCheck : Obligations.ExecTakesFirstFailingCheck := fun i s => by
  have hc := exec_checked i s
  constructor
  · intro c n hf
    rw [hf] at hc
    exact hc
  · intro hf hs
    rw [hf] at hc
    obtain ⟨t, ht, hst⟩ := hc
    exact ⟨t, ht, hst ▸ statusAfter_ne_faulted hs i⟩

/-! ### A Step -/

/-- All a Step of a RUNNING machine can do: a fault on a true ground; a stall; or the commit of an instruction whose opcode is the
byte at the pc. -/
theorem step_answers {s : State} (hs : s.status = .running) :
    (∃ (c : Cause) (n : FaultInfo), step s = .next (takeFault c n s.afterFetch) ∧ FaultGround s.afterFetch c n) ∨
    step s = .next s.afterFetch ∨
    ∃ (i : Instr) (t : State), s.loadByte s.pc = (encode i).head? ∧ step s = .next t ∧ Commits i s.afterFetch t := by
  rcases fetch_inv s with ⟨h, hf⟩ | ⟨op, h, ⟨-, -, hf⟩ | ⟨c, n, hf, hg⟩ | ⟨o, a, b, hd, hf⟩⟩
  · rw [State.afterFetch_of_none h]
    exact .inl ⟨_, _, step_of_fetch_stop hs hf, State.loadByte_eq_none.1 h⟩
  all_goals rw [State.afterFetch_of_some h]
  · exact .inr (.inl (step_of_fetch_stop hs hf))
  · exact .inl ⟨c, n, step_of_fetch_stop hs hf, hg⟩
  · rw [step_of_fetch_run hs hf]
    rcases exec_answers (o.build a b) (s.setIr op) with ⟨t, ht, hc⟩ | ⟨c, n, ht, hg⟩
    · refine .inr (.inr ⟨o.build a b, t, ?_, ht, hc⟩)
      rw [h, encode_build, (decodeOpcode_eq_some.1 hd).1, List.head?_cons]
    · exact .inl ⟨c, n, ht, hg⟩

/-- Settles O32: outside RUNNING nothing happens, and in RUNNING each of the three outcomes is a next state. -/
theorem everyStepAnswers : Obligations.EveryStepAnswers := fun s => by
  by_cases hs : s.status = .running
  · rcases step_answers hs with ⟨c, n, h, -⟩ | h | ⟨-, t, -, h, -⟩
    · exact ⟨_, h⟩
    · exact ⟨_, h⟩
    · exact ⟨t, h⟩
  · exact ⟨s, step_of_not_running hs⟩

/-- All a Step can leave, from any status. -/
theorem step_inv {s t : State} (h : step s = .next t) :
    t = s ∨ t = s.afterFetch ∨
    (∃ (c : Cause) (n : FaultInfo), t = takeFault c n s.afterFetch ∧ FaultGround s.afterFetch c n) ∨
    ∃ i : Instr, s.loadByte s.pc = (encode i).head? ∧ Commits i s.afterFetch t := by
  by_cases hs : s.status = .running
  · rcases step_answers hs with ⟨c, n, hr, hg⟩ | hr | ⟨i, u, hop, hr, hc⟩ <;>
      obtain rfl := Host.Outcome.next.inj (h.symm.trans hr)
    · exact .inr (.inr (.inl ⟨c, n, rfl, hg⟩))
    · exact .inr (.inl rfl)
    · exact .inr (.inr (.inr ⟨i, hop, hc⟩))
  · exact .inl (Host.Outcome.next.inj (h.symm.trans (step_of_not_running hs)))

/-- Unless an instruction commits, a Step changes `ir`, the status and the fault record at most. -/
theorem step_frame {s t : State} (h : step s = .next t) :
    t = { s with ir := t.ir, status := t.status, faultRecord := t.faultRecord } ∨
    ∃ i : Instr, s.loadByte s.pc = (encode i).head? ∧ Commits i s.afterFetch t := by
  rcases step_inv h with rfl | rfl | ⟨c, n, rfl, -⟩ | hc
  · exact .inl rfl
  · exact .inl rfl
  · exact .inl rfl
  · exact .inr hc

theorem step_params {s t : State} (h : step s = .next t) : t.params = s.params := by
  rcases step_frame h with ht | ⟨i, -, hc⟩
  · rw [ht]
  · exact hc.params

/-- A Step's one write of memory (R36, R38). -/
theorem step_mem {s t : State} (h : step s = .next t) :
    t.mem = s.mem ∨ (s.loadByte s.pc = some 0x45 ∨ s.loadByte s.pc = some 0x50) ∧
      ∃ v : Byte, t.mem = s.mem.write s.pushAddr.toNat v := by
  rcases step_frame h with ht | ⟨i, hop, hc⟩
  · exact .inl (by rw [ht])
  · rw [hop]
    exact hc.mem

/-- Settles O43: a cell that reads otherwise is the one cell of `step_mem`'s write. -/
theorem onlyPushAndCallWriteMemory : Obligations.OnlyPushAndCallWriteMemory := fun s t a h hne => by
  rcases step_mem h with hm | ⟨hop, v, hm⟩
  · exact absurd (congrArg (Memory.read · a.toNat) hm) hne
  · have hread : t.readByte a = (s.writeByte s.pushAddr v).readByte a := congrArg (Memory.read · a.toNat) hm
    have ha : a = s.pushAddr := by
      by_contra ha
      exact hne (hread.trans (State.readByte_writeByte_other s v ha))
    subst ha
    exact ⟨hop, s.pushAddr_toNat, by simp [hread]⟩

/-- A Step that changes the flag executed a COMPARE (R23). -/
theorem step_flag {s t : State} (h : step s = .next t) :
    t.flag = s.flag ∨ s.loadByte s.pc = some 0xA7 ∧ t.flag ≠ .unset := by
  rcases step_frame h with ht | ⟨i, hop, hc⟩
  · exact .inl (by rw [ht])
  · rw [hop]
    exact hc.flag

/-- A Step that changes the output executed a PRINT_REG (R32). -/
theorem step_output {s t : State} (h : step s = .next t) :
    t.output = s.output ∨ s.loadByte s.pc = some 0x47 ∧ ∃ r : RegIndex, t.output = s.output ++ [s.reg r] := by
  rcases step_frame h with ht | ⟨i, hop, hc⟩
  · exact .inl (by rw [ht])
  · rw [hop]
    exact hc.output

/-! ### The fault record -/

/-- Taking a fault writes nothing that a ground speaks of, so the ground still stands (R71). -/
theorem recordTrue_takeFault {s : State} {c : Cause} {n : FaultInfo} (h : FaultGround s c n) : RecordTrue (takeFault c n s) :=
  ⟨rfl, h⟩

theorem recordTrue_of_step_faulted {s t : State} (hs : s.status = .running) (h : step s = .next t)
    (ht : t.status = .faulted) : RecordTrue t := by
  rcases step_inv h with rfl | rfl | ⟨c, n, rfl, hg⟩ | ⟨i, -, hc⟩
  · simp [hs] at ht
  · simp [hs] at ht
  · exact recordTrue_takeFault hg
  · exact absurd (hc.status.symm.trans ht) (statusAfter_ne_faulted hs i)

/-- Of UNINIT's three grounds only the flag's does not ask for UNINIT_POLICY = FAULT (R112). -/
theorem faultGround_uninit_of_zero {s : State} {n : FaultInfo} (hz : s.params.uninit = .zero)
    (hg : FaultGround s .uninit n) : n = .flag ∧ s.flag = .unset := by
  cases n with
  | number => exact hg.elim
  | reg i => obtain ⟨-, hu⟩ := hg; simp [hz] at hu
  | mem a => obtain ⟨-, hu⟩ := hg; simp [hz] at hu
  | flag => exact ⟨rfl, hg⟩

/-- Settles O38: the record is true of the state, and no Step makes the flag UNSET. -/
theorem zeroPolicyFaultsOnlyOnFlag : Obligations.ZeroPolicyFaultsOnlyOnFlag := fun s t hs hz h ht hcause => by
  obtain ⟨-, hg⟩ := recordTrue_of_step_faulted hs h ht
  rw [hcause] at hg
  obtain ⟨hinfo, hunset⟩ := faultGround_uninit_of_zero (step_params h ▸ hz) hg
  rcases step_flag h with hf | ⟨-, hf⟩
  · exact ⟨hinfo, hf ▸ hunset⟩
  · exact absurd hunset hf

/-- DECODE's ground makes the Step one that fetched an unknown opcode. -/
theorem step_of_decode_ground {s : State} {n : FaultInfo} (hs : s.status = .running)
    (hu : s.params.unknownOpcode = .stall) (hg : FaultGround s.afterFetch .decode n) :
    step s = .next s.afterFetch := by
  cases n with
  | number n =>
    obtain ⟨-, hop, hd⟩ := hg
    have hop' : s.loadByte s.pc = some s.afterFetch.ir := hop
    rw [State.afterFetch_of_some hop']
    exact step_unknown_stall hs hop' hd hu
  | _ => exact hg.elim

/-- Under STALL no Step raises DECODE (R78). -/
theorem cause_ne_decode_of_stall {s t : State} (hs : s.status = .running) (hu : s.params.unknownOpcode = .stall)
    (h : step s = .next t) (ht : t.status = .faulted) : t.faultRecord.cause ≠ .decode := by
  rcases step_answers hs with ⟨c, n, hr, hg⟩ | hr | ⟨i, u, -, hr, hc⟩ <;>
    obtain rfl := Host.Outcome.next.inj (h.symm.trans hr)
  · rintro rfl
    have hstall := Host.Outcome.next.inj (hr.symm.trans (step_of_decode_ground hs hu hg))
    have hstatus : Status.faulted = s.status := congrArg State.status hstall
    simp [hs] at hstatus
  · simp [hs] at ht
  · exact absurd (hc.status.symm.trans ht) (statusAfter_ne_faulted hs i)

/-- Settles O54: `stepFault` decides every other fault, and a Step that took it for C2's would have raised DECODE. -/
theorem stallKeepsEveryOtherCheck : Obligations.StallKeepsEveryOtherCheck := fun s hs hu =>
  ⟨fun c n hsf hc => step_of_stepFault_eq_some hs (fun _ => hc) hsf, fun hsf => by
    obtain ⟨t, h⟩ := everyStepAnswers s
    refine ⟨t, h, fun ht => ?_⟩
    rcases step_stepFault hs with ⟨c, n, hcn, hr⟩ | ⟨_, -, -, -, hr⟩ | ⟨_, o, a, b, _, -, -, -, hr, hst⟩ <;>
      obtain rfl := Host.Outcome.next.inj (h.symm.trans hr)
    · exact cause_ne_decode_of_stall hs hu h ht (hsf c n hcn)
    · simp [hs] at ht
    · exact statusAfter_ne_faulted hs (o.build a b) (hst.symm.trans ht)⟩

end Sys2Proof.Machine
end

section
/-! PROOFS. The host's moves Load and Start (R125, R126, R129), the parameters, and the machine's invariant under every move. -/

namespace Sys2Proof.Machine

/-! ### The moves of the host -/

theorem loadImage_inv {image : List Byte} {s t : State} (h : loadImage image s = .next t) :
    s.status = .idle ∧ image.length ≤ 256 ∧ t = s.loaded image := by
  unfold loadImage at h
  split_ifs at h with hs hlen
  exact ⟨hs, hlen, (Host.Outcome.next.inj h).symm⟩

theorem loadImage_of_not_idle {s : State} (h : s.status ≠ .idle) (image : List Byte) :
    loadImage image s = .refused .loadOutsideIdle := if_neg h

theorem loadImage_of_gt {image : List Byte} {s : State} (hs : s.status = .idle) (h : 256 < image.length) :
    loadImage image s = .refused .imageTooLong :=
  (if_pos hs).trans (if_neg (Nat.not_le.2 h))

theorem applyStart_of_not_idle {s : State} (h : s.status ≠ .idle) : s.applyStart = s := by
  unfold State.applyStart
  cases hs : s.status with
  | idle => exact absurd hs h
  | _ => rfl

/-- Settles O51: `loadImage`'s two checks, the status before the length. -/
theorem excludedLoadsAreRefused : Obligations.ExcludedLoadsAreRefused :=
  ⟨fun image _ hs => loadImage_of_not_idle hs image, fun _ _ hs hlen => loadImage_of_gt hs hlen⟩

/-- Settles O52: Start from IDLE, from any other status, and from the reset state. -/
theorem startRunsIdleMachine : Obligations.StartRunsIdleMachine :=
  ⟨fun _ hs => congrArg Host.Outcome.next (applyStart_of_idle hs),
   fun _ hs => congrArg Host.Outcome.next (applyStart_of_not_idle hs),
   fun p => by rw [applyStart_of_idle (State.resetWith_status p)]; exact ⟨rfl, rfl⟩⟩

/-- Settles O46: HALTED and FAULTED are neither RUNNING nor IDLE, and only in those does a move other than Reset act. -/
theorem stoppedMachineStays : Obligations.StoppedMachineStays := fun s hs => by
  have hrun : s.status ≠ .running := by rcases hs with hs | hs <;> simp [hs]
  have hidle : s.status ≠ .idle := by rcases hs with hs | hs <;> simp [hs]
  exact ⟨run_of_step_self (step_of_not_running hrun), congrArg Host.Outcome.next (applyStart_of_not_idle hidle),
    loadImage_of_not_idle hidle⟩

theorem applyStart_params (s : State) : s.applyStart.params = s.params := by
  by_cases h : s.status = .idle
  · rw [applyStart_of_idle h]; rfl
  · rw [applyStart_of_not_idle h]

/-- Settles O45: Reset reads the parameters back, and no other move touches the field. -/
theorem parametersAreFixed : Obligations.ParametersAreFixed :=
  ⟨rfl, fun m s t h => by
    cases m with
    | reset => obtain rfl := Host.Outcome.next.inj h; rfl
    | load image => obtain ⟨-, -, rfl⟩ := loadImage_inv h; rfl
    | start => obtain rfl := Host.Outcome.next.inj h; exact applyStart_params s
    | step => exact step_params h⟩

/-- Settles O53, cause by cause. -/
theorem causeCodes : Obligations.CauseCodes := ⟨rfl, rfl, rfl, rfl, rfl⟩

/-! ### The invariant -/

/-- Outside FAULTED and HALTED the invariant asks for canonical memory alone. -/
theorem Inv.of_memory {s : State} (hm : s.mem.wf) (hs : s.status = .idle ∨ s.status = .running) : Inv s :=
  ⟨hm, fun h => by simp [h] at hs, fun h => by simp [h] at hs⟩

/-- Settles O48: Reset leaves IDLE and an empty memory. -/
theorem invariantAtReset : Obligations.InvariantAtReset := fun _ => .of_memory State.reset_mem_wf (.inl rfl)

theorem Inv.applyStart {s : State} (h : Inv s) : Inv s.applyStart := by
  by_cases hs : s.status = .idle
  · rw [applyStart_of_idle hs]
    exact .of_memory h.memory (.inr rfl)
  · rwa [applyStart_of_not_idle hs]

theorem step_mem_wf {s t : State} (hm : s.mem.wf) (h : step s = .next t) : t.mem.wf := by
  rcases step_mem h with hmem | ⟨-, v, hmem⟩ <;> rw [hmem]
  · exact hm
  · exact Memory.write_wf hm s.pushAddr.isLt v

/-- A Step that halts is the Step of `step_halt` (R79). -/
theorem eq_halted_of_step_halted {s t : State} (hs : s.status = .running) (h : step s = .next t)
    (ht : t.status = .halted) : s.loadByte s.pc = some 0x01 ∧ t = (s.setIr 0x01).setStatus .halted := by
  obtain ⟨-, hhalt, -⟩ := step_status hs h
  have hop := hhalt.1 ht
  exact ⟨hop, Host.Outcome.next.inj (h.symm.trans (step_halt hs hop))⟩

theorem Inv.step {s t : State} (hi : Inv s) (h : step s = .next t) : Inv t := by
  by_cases hs : s.status = .running
  · refine ⟨step_mem_wf hi.memory h, recordTrue_of_step_faulted hs h, fun ht => ?_⟩
    obtain ⟨hop, rfl⟩ := eq_halted_of_step_halted hs h ht
    exact ⟨hop, rfl⟩
  · obtain rfl := Host.Outcome.next.inj (h.symm.trans (step_of_not_running hs))
    exact hi

/-- Settles O47, move by move. -/
theorem invariantIsKept : Obligations.InvariantIsKept := fun m s t hi h => by
  cases m with
  | reset =>
    obtain rfl := Host.Outcome.next.inj h
    exact invariantAtReset s.params
  | load image =>
    obtain ⟨hs, hlen, rfl⟩ := loadImage_inv h
    exact .of_memory (Memory.writeFrom_wf hi.memory (by omega)) (.inl hs)
  | start =>
    obtain rfl := Host.Outcome.next.inj h
    exact hi.applyStart
  | step => exact hi.step h

end Sys2Proof.Machine
end

section
/-! PROOFS. Two runs side by side: a relation of states that every write keeps, between states that agree on what an instruction reads,
holds of the two outcomes. No register outside R19's column, no flag outside the conditional jumps and no output is read. -/

namespace Sys2Proof.Machine

/-- The relation is kept where both states make the same write, or take the same fault. -/
structure KeptByWrites (Q : State → State → Prop) : Prop where
  takeFault : ∀ {s s' : State}, Q s s' → s'.pc = s.pc → FaultsBoth Q s s'
  setReg    : ∀ {s s' : State}, Q s s' → ∀ (i : RegIndex) (v : Byte), Q (s.setReg i v) (s'.setReg i v)
  setPc     : ∀ {s s' : State}, Q s s' → ∀ p : Byte, Q (s.setPc p) (s'.setPc p)
  setFlag   : ∀ {s s' : State}, Q s s' → ∀ f : Flag, Q (s.setFlag f) (s'.setFlag f)
  setStatus : ∀ {s s' : State}, Q s s' → ∀ st : Status, Q (s.setStatus st) (s'.setStatus st)
  emit      : ∀ {s s' : State}, Q s s' → ∀ v : Byte, Q (s.emit v) (s'.emit v)
  writeByte : ∀ {s s' : State}, Q s s' → ∀ a v : Byte, Q (s.writeByte a v) (s'.writeByte a v)

/-- The two states agree on all that the instruction may read: the pc, memory, R19's column, and the flag where it is a conditional
jump. -/
structure ReadsAgree (i : Instr) (s s' : State) : Prop where
  pc       : s'.pc = s.pc
  params   : s'.params = s.params
  readByte : ∀ a : Byte, s'.readByte a = s.readByte a
  reg      : ∀ r ∈ regsRead i, s'.reg r = s.reg r ∧ s'.isWritten r = s.isWritten r
  flag     : isConditionalJump i = true → s'.flag = s.flag

section
variable {i : Instr} {s s' : State} (hr : ReadsAgree i s s')
include hr

theorem ReadsAgree.operand {a : Byte} (hi : named a ⊆ regsRead i) (r : RegIndex) (ha : a = regByte r) :
    s'.reg r = s.reg r ∧ s'.isWritten r = s.isWritten r :=
  hr.reg r (hi (by simp [ha]))

theorem ReadsAgree.readOperand {a : Byte} (hi : named a ⊆ regsRead i) (r : RegIndex) (ha : a = regByte r) :
    s'.readReg r = s.readReg r :=
  have ⟨hreg, hwritten⟩ := hr.operand hi r ha
  State.readReg_congr hreg hwritten hr.params

theorem ReadsAgree.readOperands {a b : Byte} (hi : regsRead i = named a ++ named b) (r : RegIndex) :
    a = regByte r ∨ b = regByte r → s'.readReg r = s.readReg r := by
  rintro (ha | hb)
  · exact hr.readOperand (by simp [hi]) r ha
  · exact hr.readOperand (by simp [hi]) r hb

theorem ReadsAgree.loadByte (a : Byte) : s'.loadByte a = s.loadByte a := State.loadByte_congr (hr.readByte a) hr.params

theorem ReadsAgree.reg_seven (h : 7 ∈ regsRead i) : s'.reg 7 = s.reg 7 := (hr.reg 7 h).1

theorem ReadsAgree.pushAddr (h : 7 ∈ regsRead i) : s'.pushAddr = s.pushAddr := by
  rw [State.pushAddr, State.sp_eq, hr.reg_seven h, ← State.sp_eq, ← State.pushAddr]

end

/-- The stack pointer after a pop depends on R7 alone. -/
theorem State.popSp_congr {s s' : State} (h : s'.reg 7 = s.reg 7) : s'.popSp = s.popSp := by
  rw [State.popSp, State.sp_eq, h, ← State.sp_eq, ← State.popSp]

theorem State.setReg_reg_congr {s s' : State} {j : RegIndex} (h : s'.reg j = s.reg j) (i : RegIndex) (v : Byte) :
    (s'.setReg i v).reg j = (s.setReg i v).reg j := by
  rw [State.reg_setReg, State.reg_setReg, h]

section
variable {Q : State → State → Prop} (hQ : KeptByWrites Q) {s s' : State} (h : Q s s')
include hQ h

theorem KeptByWrites.setReg_setPc (i : RegIndex) (v p : Byte) : Q ((s.setReg i v).setPc p) ((s'.setReg i v).setPc p) :=
  hQ.setPc (hQ.setReg h i v) p

/-- Two pushes to the same address of the same byte. -/
theorem KeptByWrites.pushByte {v v' : State → Byte} (hp : s'.pushAddr = s.pushAddr)
    (hv : v' (s'.setReg 7 s.pushAddr) = v (s.setReg 7 s.pushAddr)) : Q (pushByte v s) (pushByte v' s') := by
  rw [pushByte_eq, pushByte_eq, hp, hv]
  exact hQ.writeByte (hQ.setReg h 7 _) _ _

/-- The nine two-register ALU instructions read their two operands and no other register. -/
theorem aluTwo_both_of_readsAgree {i : Instr} (hr : ReadsAgree i s s') (op : AluOp) (a b : Byte)
    (hi : regsRead i = named a ++ named b) : Both Q (aluTwo op a b s) (aluTwo op a b s') :=
  aluTwo_both (hQ.takeFault h hr.pc) hr.pc op a b (hr.readOperands hi) fun r v p _ => hQ.setReg_setPc h r v p

/-- What an instruction does not read makes no difference to it. -/
theorem exec_both {i : Instr} (hr : ReadsAgree i s s') : Both Q (exec i s) (exec i s') := by
  have hf : FaultsBoth Q s s' := hQ.takeFault h hr.pc
  cases i with
  | halt => exact both_next (hQ.setStatus h _)
  | ret =>
    have h7 : s'.reg 7 = s.reg 7 := hr.reg_seven (List.mem_singleton_self 7)
    refine withStackByte_both hf h7 (hr.loadByte _) fun v => both_next ?_
    rw [State.popSp_congr h7]
    exact hQ.setReg_setPc h 7 _ v
  | push a =>
    have h7 : 7 ∈ regsRead (.push a) := by simp [regsRead]
    refine withOperand_both hf a (hr.readOperand (by simp [regsRead])) fun r ha =>
      withPcPlus_both hf hr.pc 2 fun p => both_next (hQ.setPc (hQ.pushByte h (hr.pushAddr h7) ?_) p)
    exact State.setReg_reg_congr (hr.operand (by simp [regsRead]) r ha).1 7 _
  | pop a =>
    have h7 : s'.reg 7 = s.reg 7 := hr.reg_seven (List.mem_singleton_self 7)
    refine withIndex_both hf a fun r _ => withStackByte_both hf h7 (hr.loadByte _) fun v =>
      withPcPlus_both hf hr.pc 2 fun p => both_next ?_
    rw [State.popSp_congr (State.setReg_reg_congr h7 r v)]
    exact hQ.setReg_setPc (hQ.setReg h r v) 7 _ p
  | printReg a =>
    exact withOperand_both hf a (hr.readOperand (by simp [regsRead])) fun r _ =>
      withPcPlus_both hf hr.pc 2 fun p => both_next (hQ.setPc (hQ.emit h _) p)
  | call a =>
    have h7 : 7 ∈ regsRead (.call a) := by simp [regsRead]
    refine withOperand_both hf a (hr.readOperand (by simp [regsRead])) fun r ha =>
      withPcPlus_both hf hr.pc 2 fun p => both_next ?_
    have htarget : (pushByte (fun _ => p) s').reg r = (pushByte (fun _ => p) s).reg r := by
      rw [pushByte_reg, pushByte_reg, hr.pushAddr h7, (hr.operand (by simp [regsRead]) r ha).1]
    rw [htarget]
    exact hQ.setPc (hQ.pushByte h (hr.pushAddr h7) rfl) _
  | jump a =>
    exact withOperand_both hf a (hr.readOperand (by simp [regsRead])) fun r _ =>
      both_next (hQ.setPc h _)
  | jumpIfEqual a =>
    exact withOperand_both hf a (hr.readOperand (by simp [regsRead])) fun r _ =>
      withFlagEqual_both hf (hr.flag rfl) fun eq => branch_both hf hr.pc eq _ (hQ.setPc h)
  | jumpIfNotEqual a =>
    exact withOperand_both hf a (hr.readOperand (by simp [regsRead])) fun r _ =>
      withFlagEqual_both hf (hr.flag rfl) fun eq => branch_both hf hr.pc (!eq) _ (hQ.setPc h)
  | not a =>
    exact withOperand_both hf a (hr.readOperand (by simp [regsRead])) fun r _ =>
      withPcPlus_both hf hr.pc 2 fun p => both_next (hQ.setReg_setPc h r _ p)
  | loadImmediate a imm =>
    exact withIndex_both hf a fun r _ => withPcPlus_both hf hr.pc 3 fun p => both_next (hQ.setReg_setPc h r imm p)
  | compare a b =>
    exact withOperands_both hf a b (hr.readOperands rfl) fun r r' _ =>
      withPcPlus_both hf hr.pc 3 fun p => both_next (hQ.setPc (hQ.setFlag h _) p)
  | add a b => exact aluTwo_both_of_readsAgree hQ h hr .add a b rfl
  | sub a b => exact aluTwo_both_of_readsAgree hQ h hr .sub a b rfl
  | mul a b => exact aluTwo_both_of_readsAgree hQ h hr .mul a b rfl
  | div a b => exact aluTwo_both_of_readsAgree hQ h hr .div a b rfl
  | and a b => exact aluTwo_both_of_readsAgree hQ h hr .and a b rfl
  | or a b => exact aluTwo_both_of_readsAgree hQ h hr .or a b rfl
  | xor a b => exact aluTwo_both_of_readsAgree hQ h hr .xor a b rfl
  | shl a b => exact aluTwo_both_of_readsAgree hQ h hr .shl a b rfl
  | shr a b => exact aluTwo_both_of_readsAgree hQ h hr .shr a b rfl

end

/-! ### Registers (R19) -/

/-- The two states agree on everything but register `k`. -/
def AgreeBut (k : RegIndex) (s s' : State) : Prop :=
  SameRegsBut [k] s s' ∧ s'.pc = s.pc ∧ SameBytes s s' ∧ s'.flag = s.flag ∧ s'.output = s.output ∧ SameController s s'

theorem agreeBut_setReg_self (k : RegIndex) (s : State) (v : Byte) : AgreeBut k s (s.setReg k v) :=
  ⟨sameRegsBut_setReg (sameRegsBut_refl _ s) (List.mem_singleton_self k) v, rfl, fun _ => rfl, rfl, rfl, rfl, rfl, rfl, rfl⟩

theorem agreeBut_keptByWrites (k : RegIndex) : KeptByWrites (AgreeBut k) where
  takeFault := fun ⟨hregs, hpc, hbytes, hflag, hout, _, _, hir, hparams⟩ _ c n =>
    ⟨hregs, hpc, hbytes, hflag, hout, rfl, by simp [hpc], hir, hparams⟩
  setReg := fun ⟨hregs, hpc, hbytes, hflag, hout, hctl⟩ i v =>
    ⟨fun j hj => by
      rw [State.reg_setReg, State.reg_setReg, State.isWritten_setReg, State.isWritten_setReg, (hregs j hj).1, (hregs j hj).2]
      exact ⟨rfl, rfl⟩, hpc, hbytes, hflag, hout, hctl⟩
  setPc := fun ⟨hregs, _, hbytes, hflag, hout, hctl⟩ _ => ⟨hregs, rfl, hbytes, hflag, hout, hctl⟩
  setFlag := fun ⟨hregs, hpc, hbytes, _, hout, hctl⟩ _ => ⟨hregs, hpc, hbytes, rfl, hout, hctl⟩
  setStatus := fun ⟨hregs, hpc, hbytes, hflag, hout, _, hctl⟩ _ => ⟨hregs, hpc, hbytes, hflag, hout, rfl, hctl⟩
  emit := fun ⟨hregs, hpc, hbytes, hflag, hout, hctl⟩ v => ⟨hregs, hpc, hbytes, hflag, by simp [hout], hctl⟩
  writeByte := fun ⟨hregs, hpc, hbytes, hflag, hout, hctl⟩ a v =>
    ⟨hregs, hpc, fun b => by rw [State.readByte_writeByte, State.readByte_writeByte, hbytes b], hflag, hout, hctl⟩

theorem AgreeBut.readsAgree {k : RegIndex} {s s' : State} (h : AgreeBut k s s') {i : Instr} (hk : k ∉ regsRead i) :
    ReadsAgree i s s' := by
  obtain ⟨hregs, hpc, hbytes, hflag, -, -, -, -, hparams⟩ := h
  exact ⟨hpc, hparams, hbytes, fun r hr => hregs r fun hrk => hk (List.mem_singleton.1 hrk ▸ hr), fun _ => hflag⟩

/-- Settles O40: a write of a register that the instruction does not read leaves the two states agreeing on the rest. -/
theorem onlyTabledRegistersAreRead : Obligations.OnlyTabledRegistersAreRead := fun _ s k v hk =>
  have hagree := agreeBut_setReg_self k s v
  exec_both (agreeBut_keptByWrites k) hagree (hagree.readsAgree hk)

/-! ### The flag (R23) -/

/-- The second state is the first but for the flag. -/
def SameButFlag (s s' : State) : Prop := { s' with flag := s.flag } = s

theorem sameButFlag_iff {s s' : State} : SameButFlag s s' ↔ ∃ f : Flag, s' = s.setFlag f := by
  constructor
  · intro h
    exact ⟨s'.flag, by rw [← h]; rfl⟩
  · rintro ⟨f, rfl⟩
    rfl

theorem sameButFlag_keptByWrites : KeptByWrites SameButFlag := by
  constructor
  case takeFault =>
    intro s s' h hpc c n
    obtain ⟨f, rfl⟩ := sameButFlag_iff.1 h
    rfl
  all_goals
    intro s s' h
    obtain ⟨f, rfl⟩ := sameButFlag_iff.1 h
    intros
    rfl

/-- Settles O41: `step_flag`, and two runs from states that differ in the flag. -/
theorem flagWritersAndReaders : Obligations.FlagWritersAndReaders :=
  ⟨fun _ _ h hne => (step_flag h).resolve_left hne,
   fun i s f hi => exec_both sameButFlag_keptByWrites (s := s) (s' := s.setFlag f) rfl
    ⟨rfl, rfl, fun _ => rfl, fun _ _ => ⟨rfl, rfl⟩, fun h => by simp [hi] at h⟩⟩

/-! ### The output (R32) -/

/-- The state with another output history. -/
def State.setOutput (s : State) (o : List Byte) : State := { s with output := o }

/-- From the histories `o₁` and `o₂` on, the two states have emitted the same bytes, and they agree on everything else. -/
def SameEvents (o₁ o₂ : List Byte) (s s' : State) : Prop :=
  ∃ ev : List Byte, s.output = o₁ ++ ev ∧ s' = s.setOutput (o₂ ++ ev)

theorem sameEvents_keptByWrites (o₁ o₂ : List Byte) : KeptByWrites (SameEvents o₁ o₂) := by
  constructor
  case takeFault =>
    rintro s _ ⟨ev, hev, rfl⟩ - c n
    exact ⟨ev, hev, rfl⟩
  case emit =>
    rintro s _ ⟨ev, hev, rfl⟩ v
    exact ⟨ev ++ [v], by simp [hev], by simp [State.setOutput, State.emit]⟩
  all_goals
    rintro s _ ⟨ev, hev, rfl⟩
    intros
    exact ⟨ev, hev, rfl⟩

/-- The fetch with another output history. -/
def Fetched.setOutput (o : List Byte) : Fetched → Fetched
  | .run i s => .run i (s.setOutput o)
  | .stop s => .stop (s.setOutput o)

@[simp] theorem State.setOutput_loadByte (s : State) (o : List Byte) (a : Byte) :
    (s.setOutput o).loadByte a = s.loadByte a := rfl

@[simp] theorem State.setOutput_pc (s : State) (o : List Byte) : (s.setOutput o).pc = s.pc := rfl

theorem fetchOperands_setOutput (r : Op) (s : State) (o : List Byte) :
    fetchOperands r (s.setOutput o) = (fetchOperands r s).setOutput o := by
  unfold fetchOperands
  simp only [State.setOutput_loadByte, State.setOutput_pc]
  split
  · rfl
  · split <;> rfl
  · split
    · rfl
    · split <;> rfl

theorem unknownOpcode_setOutput (op : Byte) (s : State) (o : List Byte) :
    unknownOpcode op (s.setOutput o) = (unknownOpcode op s).setOutput o := by
  cases hu : s.params.unknownOpcode with
  | fault => rw [unknownOpcode_of_fault hu, unknownOpcode_of_fault (s := s.setOutput o) hu]; rfl
  | stall => rw [unknownOpcode_of_stall hu, unknownOpcode_of_stall (s := s.setOutput o) hu]

theorem fetch_setOutput (s : State) (o : List Byte) : fetch (s.setOutput o) = (fetch s).setOutput o := by
  cases h : s.loadByte s.pc with
  | none => rw [fetch_unwritten h, fetch_unwritten (s := s.setOutput o) h]; rfl
  | some op =>
    cases hd : decodeOpcode s.params.notOpcode op with
    | none =>
      rw [fetch_unknown h hd, fetch_unknown (s := s.setOutput o) h hd]
      exact congrArg Fetched.stop (unknownOpcode_setOutput op (s.setIr op) o)
    | some r =>
      by_cases hp : 255 < s.pc.toNat + r.length - 1
      · rw [fetch_pastTop h hd hp, fetch_pastTop (s := s.setOutput o) h hd hp]; rfl
      · have hp' := Nat.not_lt.1 hp
        rw [fetch_known h hd hp', fetch_known (s := s.setOutput o) h hd hp']
        exact fetchOperands_setOutput r (s.setIr op) o

theorem sameEvents_refl (s : State) (o : List Byte) : SameEvents s.output o s (s.setOutput o) :=
  ⟨[], by simp, by simp⟩

/-- A Step with another output history: the same events, and the same effect on everything else. -/
theorem step_both_setOutput (s : State) (o : List Byte) :
    Both (SameEvents s.output o) (step s) (step (s.setOutput o)) := by
  by_cases hs : s.status = .running
  · have hs' : (s.setOutput o).status = .running := hs
    have hfetch := fetch_setOutput s o
    rcases fetch_stepFault s with ⟨c, n, -, hf⟩ | ⟨op, -, -, -, hf⟩ | ⟨op, r, a, b, -, -, -, hf⟩ <;> rw [hf] at hfetch
    · rw [step_of_fetch_stop hs hf, step_of_fetch_stop hs' hfetch]
      exact both_next (sameEvents_refl (takeFault c n s.afterFetch) o)
    · rw [step_of_fetch_stop hs hf, step_of_fetch_stop hs' hfetch]
      exact both_next (sameEvents_refl s.afterFetch o)
    · rw [step_of_fetch_run hs hf, step_of_fetch_run hs' hfetch]
      exact exec_both (sameEvents_keptByWrites _ o) (sameEvents_refl s.afterFetch o)
        ⟨rfl, rfl, fun _ => rfl, fun _ _ => ⟨rfl, rfl⟩, fun _ => rfl⟩
  · rw [step_of_not_running hs, step_of_not_running (s := s.setOutput o) hs]
    exact both_next (sameEvents_refl s o)

/-- Settles O42: the Step's events are those of every run beside it, and `step_output` says which they can be. -/
theorem outputGrowsOnlyByPrintReg : Obligations.OutputGrowsOnlyByPrintReg := by
  refine ⟨rfl, fun s t h => ?_⟩
  have hevents (o : List Byte) : ∃ ev, t.output = s.output ++ ev ∧ step (s.setOutput o) = .next (t.setOutput (o ++ ev)) := by
    obtain ⟨t', u, ht, hu, ev, hev, rfl⟩ := step_both_setOutput s o
    obtain rfl := Host.Outcome.next.inj (h.symm.trans ht)
    exact ⟨ev, hev, hu⟩
  obtain ⟨ev, hev, -⟩ := hevents []
  refine ⟨ev, hev, ?_, fun o => ?_⟩
  · rcases step_output h with hout | ⟨hop, r, hout⟩
    · exact .inl (List.append_cancel_left (hev.symm.trans (hout.trans (List.append_nil _).symm)))
    · exact .inr ⟨hop, r, List.append_cancel_left (hev.symm.trans hout)⟩
  · obtain ⟨ev', hev', hstep⟩ := hevents o
    obtain rfl := List.append_cancel_left (hev.symm.trans hev')
    exact hstep

end Sys2Proof.Machine
end

section
/-! PROOFS. Two instructions in a row: ADD then SUB (R95), CALL then RETURN (R86), and a PUSH whose byte is fetched next (R48). -/

namespace Sys2Proof.Machine

/-! ### ADD then SUB -/

/-- The sum of two registers, modulo 256 (R93). -/
def State.sum (s : State) (i j : RegIndex) : Byte := wrap8 ((s.reg i).toNat + (s.reg j).toNat)

/-- The state that a completed ADD of registers `i` and `j` leaves (R96). -/
def State.added (s : State) (i j : RegIndex) : State := (s.setReg i (s.sum i j)).setPc (BitVec.ofNat 8 (s.pc.toNat + 3))

/-- Subtraction undoes addition modulo 256 (R95). -/
theorem State.alu_sub_sum (s : State) (i j : RegIndex) : alu .sub (s.sum i j) (s.reg j) = some (s.reg i) := by
  have hi := (s.reg i).isLt
  have hj := (s.reg j).isLt
  have hsum : (s.sum i j).toNat = ((s.reg i).toNat + (s.reg j).toNat) % 256 := wrap8_natCast_toNat _
  apply eq_some_of_map_toNat
  rw [alu_sub_toNat, hsum]
  congr 1
  omega

section
variable {s : State} {i j k : RegIndex}

theorem State.added_pc_toNat (hp : s.pc.toNat + 3 ≤ 255) : (s.added i j).pc.toNat = s.pc.toNat + 3 := pcPlus_toNat hp

theorem State.added_reg_same : (s.added i j).reg i = s.sum i j := State.reg_setReg_same s i _

theorem State.added_reg_other (hk : k ≠ i) : (s.added i j).reg k = s.reg k := State.reg_setReg_other s _ hk

theorem State.added_readable_same : Readable (s.added i j) i := .inl (State.isWritten_setReg_same s i (s.sum i j))

theorem State.added_readable_other (hk : k ≠ i) (h : Readable s k) : Readable (s.added i j) k :=
  h.imp_left (State.isWritten_setReg_other s (s.sum i j) hk).trans

end

theorem exec_add {s : State} {i j : RegIndex} (hi : Readable s i) (hj : Readable s j) (hp : s.pc.toNat + 3 ≤ 255) :
    exec (.add (regByte i) (regByte j)) s = .next (s.added i j) :=
  (aluTwo_of_some (op := .add) hi hj rfl).trans (withPcPlus_of_le hp _)

theorem exec_sub {s : State} {i j : RegIndex} {v : Byte} (hi : Readable s i) (hj : Readable s j)
    (hv : alu .sub (s.reg i) (s.reg j) = some v) (hp : s.pc.toNat + 3 ≤ 255) :
    exec (.sub (regByte i) (regByte j)) s = .next ((s.setReg i v).setPc (BitVec.ofNat 8 (s.pc.toNat + 3))) :=
  (aluTwo_of_some hi hj hv).trans (withPcPlus_of_le hp _)

/-- Settles O12: SUB finds the sum in `i` and, as `j` is another register, the same addend in it. -/
theorem addThenSubRestores : Obligations.AddThenSubRestores := fun i j s hij hi hj hp => by
  have hpc : (s.added i j).pc.toNat = s.pc.toNat + 3 := State.added_pc_toNat (by omega)
  have hsub : alu .sub ((s.added i j).reg i) ((s.added i j).reg j) = some (s.reg i) := by
    rw [State.added_reg_same, State.added_reg_other hij.symm]
    exact s.alu_sub_sum i j
  refine ⟨s.added i j, _, exec_add hi hj (by omega),
    exec_sub State.added_readable_same (State.added_readable_other hij.symm hj) hsub (by omega), fun k => ?_, ?_⟩
  · rw [State.setPc_reg, State.reg_setReg]
    split
    · next hk => rw [hk]
    · next hk => exact State.added_reg_other hk
  · rw [State.setPc_pc, pcPlus_toNat (by omega), hpc]

/-! ### CALL then RETURN -/

theorem Faults.status {r : Result} {s t : State} (hf : Faults r s) (h : r = .next t) : t.status = .faulted := by
  obtain ⟨c, n, hr, -⟩ := hf
  obtain rfl := Host.Outcome.next.inj (h.symm.trans hr)
  rfl

/-- What a CALL that does not fault leaves for the RETURN: the decremented stack pointer, and the return address at it. -/
theorem call_leaves {a : Byte} {s t : State} (h : exec (.call a) s = .next t) (ht : t.status ≠ .faulted) :
    s.pc.toNat + 2 ≤ 255 ∧ t.reg 7 = s.pushAddr ∧ t.readByte s.pushAddr = some (BitVec.ofNat 8 (s.pc.toNat + 2)) := by
  rcases execCall_inv a s with ⟨r, -, hp, hr⟩ | hf
  · obtain rfl := Host.Outcome.next.inj (h.symm.trans hr)
    exact ⟨hp, pushByte_reg s.returnAddress s 7, pushByte_readByte_same s.returnAddress s⟩
  · exact absurd (hf.status h) ht

/-- Settles O19: RETURN loads the return address and increments the decremented stack pointer. -/
theorem callThenReturnResumes : Obligations.CallThenReturnResumes := fun i s t w h ht hsp hcell => by
  obtain ⟨hp, hreg, hread⟩ := call_leaves h ht
  rw [hreg] at hsp hcell
  have hload : w.loadByte (w.reg 7) = some (BitVec.ofNat 8 (s.pc.toNat + 2)) := by
    rw [hsp]
    exact State.loadByte_of_readByte (hcell.trans hread)
  refine ⟨_, exec_ret hload, pcPlus_toNat hp, BitVec.eq_of_toNat_eq ?_⟩
  rw [State.setPc_reg, setReg_popSp_reg_toNat, hsp, State.pushAddr_succ_toNat]

/-! ### PUSH, then the next fetch -/

theorem regByte_injective {i j : RegIndex} (h : regByte i = regByte j) : i = j :=
  Fin.ext (by rw [← regByte_toNat i, h, regByte_toNat])

theorem eq_pushed_of_exec_push {i : RegIndex} {s t : State} (h : exec (.push (regByte i)) s = .next t)
    (ht : t.status ≠ .faulted) : t = s.pushed i := by
  rcases execPush_inv (regByte i) s with ⟨r, hr, -, hpush⟩ | hf
  · obtain rfl := regByte_injective hr
    exact Host.Outcome.next.inj (h.symm.trans hpush)
  · exact absurd (hf.status h) ht

/-- A Step of a RUNNING machine leaves in `ir` the byte it fetched, whatever comes of it (R25). -/
theorem step_ir {s t : State} (hs : s.status = .running) (h : step s = .next t) : t.ir = s.afterFetch.ir := by
  rcases step_answers hs with ⟨c, n, hr, -⟩ | hr | ⟨i, u, -, hr, hc⟩ <;>
    obtain rfl := Host.Outcome.next.inj (h.symm.trans hr)
  · rfl
  · rfl
  · exact hc.ir

/-- Settles O37: the fetch reads the cell that the PUSH wrote. -/
theorem nextFetchSeesPushedByte : Obligations.NextFetchSeesPushedByte := fun i s t u _ h ht hpc hu => by
  obtain rfl := eq_pushed_of_exec_push h (by simp [ht])
  have hload : (s.pushed i).loadByte (s.pushed i).pc = some (s.pushedByte i) := by
    rw [hpc]
    exact State.loadByte_of_readByte (s.pushed_readByte i)
  rw [step_ir ht hu, State.afterFetch_of_some hload]
  rfl

end Sys2Proof.Machine
end
